-- ==== Sys2Proof/Config.lean ====
section
/-! DEFINITION. What an implementation of the bitfield decoder fixes: the parameters of
spec/00_scope.md R4. The spec leaves the unit no free value, so nothing here is opaque; its two open
parameters (TRUNC_HDR_ERR, DIV_F64) belong to the host software, which is out of scope (R3). -/

namespace Sys2Proof.Config

/-- BYTE_W, bits per byte (R4). -/
abbrev byteW : Nat := 8

/-- ACC_W, accumulator width in bits (R4). The spec asks for at least 36 and takes 64;
DESIGN CHOICE (log 1): this model is the 64-bit unit. -/
abbrev accW : Nat := 64

/-- HDR_LEN, bytes in a metadata block header (R4). -/
abbrev hdrLen : Nat := 4

/-- REC_LEN, bytes in a STREAMINFO record (R4). -/
abbrev recLen : Nat := 34

/-- BUF_LEN, bytes in the record buffer, equal to REC_LEN (R4). -/
abbrev bufLen : Nat := 34

/-- WP_W, write pointer width in bits (R4). -/
abbrev wpW : Nat := 6

/-- CMD_W, command word width in bits (R4). -/
abbrev cmdW : Nat := 16

end Sys2Proof.Config
end

