-- ==== Sys2Proof/Word.lean ====
section
/-! DEFINITION. The word types of the unit, at the widths of spec/00_scope.md R4. The
widths are written as numerals, so that the library's bit-vector lemmas apply; that they are the
parameters of Config.lean is checked at the end. -/

namespace Sys2Proof

/-- A byte, "each in range 0–255" (R4, R65). -/
abbrev Byte := BitVec 8

/-- What the accumulator ACC holds (R10). -/
abbrev AccWord := BitVec 64

/-- A 16-bit command word (R50). -/
abbrev CmdWord := BitVec 16

/-- What the write pointer WP holds (R12). -/
abbrev WpWord := BitVec 6

/-- What the fault code register ERRC holds (R17). -/
abbrev ErrcWord := BitVec 4

/-- The widths above are the parameters of R4. -/
theorem widths_are_the_parameters :
    Byte = BitVec Config.byteW ∧ AccWord = BitVec Config.accW ∧ CmdWord = BitVec Config.cmdW ∧
      WpWord = BitVec Config.wpW :=
  ⟨rfl, rfl, rfl, rfl⟩

end Sys2Proof
end

