-- ==== Sys2Proof/Syntax.lean ====
section
/-! DEFINITION. The 16 commands of BFD command set 1 (spec/30_encoding.md R54), one constructor per
row of spec/opcode_table.json. -/

namespace Sys2Proof

/-- A command of the unit. Format I commands carry the unsigned byte `imm8` (R51, R53); format N
commands carry nothing. -/
inductive Instr where
  /-- Clear the accumulator (R69). -/
  | aclr
  /-- Append one byte to the sequence being decoded in ACC (R70). -/
  | apush (imm : Byte)
  /-- Empty the record buffer (R81). -/
  | rclr
  /-- Append one byte to the record buffer (R82). -/
  | rpush (imm : Byte)
  /-- Load one written byte of the record buffer (R83). -/
  | rldb (imm : Byte)
  /-- Is-last-block flag of the header (R91). -/
  | hlast
  /-- 7-bit block type code of the header (R92). -/
  | htype
  /-- 24-bit block length of the header (R93). -/
  | hlen
  /-- Min block size (R102). -/
  | xminblk
  /-- Max block size (R103). -/
  | xmaxblk
  /-- Min frame size (R104). -/
  | xminfrm
  /-- Max frame size (R105). -/
  | xmaxfrm
  /-- 20-bit sample rate (R106). -/
  | xrate
  /-- 3-bit channel count − 1 (R107). -/
  | xchan
  /-- 5-bit bits per sample − 1 (R108). -/
  | xbps
  /-- 36-bit total samples (R109). -/
  | xtotal
deriving DecidableEq, Repr

/-- The command's mnemonic, as R54 and spec/opcode_table.json spell it. -/
def Instr.mnemonic : Instr → String
  | .aclr => "ACLR"
  | .apush _ => "APUSH"
  | .rclr => "RCLR"
  | .rpush _ => "RPUSH"
  | .rldb _ => "RLDB"
  | .hlast => "HLAST"
  | .htype => "HTYPE"
  | .hlen => "HLEN"
  | .xminblk => "XMINBLK"
  | .xmaxblk => "XMAXBLK"
  | .xminfrm => "XMINFRM"
  | .xmaxfrm => "XMAXFRM"
  | .xrate => "XRATE"
  | .xchan => "XCHAN"
  | .xbps => "XBPS"
  | .xtotal => "XTOTAL"

/-- The operand byte of a format I command; format N commands have none (R51). -/
def Instr.operand : Instr → Option Byte
  | .apush imm => some imm
  | .rpush imm => some imm
  | .rldb imm => some imm
  | .aclr => none
  | .rclr => none
  | .hlast => none
  | .htype => none
  | .hlen => none
  | .xminblk => none
  | .xmaxblk => none
  | .xminfrm => none
  | .xmaxfrm => none
  | .xrate => none
  | .xchan => none
  | .xbps => none
  | .xtotal => none

end Sys2Proof
end

