-- ==== Sys2Proof/WellFormed.lean ====
section
/-! DEFINITION. Well-formedness: of a command (nothing is left to check beyond its type, R68), and of a
command WORD, by the match and mask columns of the opcode map (spec/30_encoding.md R54). The decoder of
Decode.lean is written from the fields instead (R50 to R55); that the two agree is a statement. -/

namespace Sys2Proof

/-- A command is well formed when its operand is a byte, 0 to 255 (R53). The type of the operand grants
it ("a value outside 0..255 ... cannot be expressed", R68), so every `Instr` passes. -/
def Instr.wf (i : Instr) : Bool :=
  match i.operand with
  | some imm => decide (imm.toNat ≤ 255)
  | none => true

/-- One row of the opcode map of R54. -/
structure OpcodeRow where
  mnemonic : String
  pattern : CmdWord
  mask : CmdWord
deriving DecidableEq, Repr

/-- "a word w is the command when `(w & mask) == match`" (R54). -/
def OpcodeRow.accepts (r : OpcodeRow) (w : CmdWord) : Bool :=
  w &&& r.mask == r.pattern

/-- The opcode map of R54, row for row. -/
def opcodeMap : List OpcodeRow :=
  [ ⟨"ACLR", 0x1000#16, 0xFFFF#16⟩,
    ⟨"APUSH", 0x1100#16, 0xFF00#16⟩,
    ⟨"RCLR", 0x2000#16, 0xFFFF#16⟩,
    ⟨"RPUSH", 0x2100#16, 0xFF00#16⟩,
    ⟨"RLDB", 0x2200#16, 0xFF00#16⟩,
    ⟨"HLAST", 0x3000#16, 0xFFFF#16⟩,
    ⟨"HTYPE", 0x3100#16, 0xFFFF#16⟩,
    ⟨"HLEN", 0x3200#16, 0xFFFF#16⟩,
    ⟨"XMINBLK", 0x4000#16, 0xFFFF#16⟩,
    ⟨"XMAXBLK", 0x4100#16, 0xFFFF#16⟩,
    ⟨"XMINFRM", 0x4200#16, 0xFFFF#16⟩,
    ⟨"XMAXFRM", 0x4300#16, 0xFFFF#16⟩,
    ⟨"XRATE", 0x4400#16, 0xFFFF#16⟩,
    ⟨"XCHAN", 0x4500#16, 0xFFFF#16⟩,
    ⟨"XBPS", 0x4600#16, 0xFFFF#16⟩,
    ⟨"XTOTAL", 0x4700#16, 0xFFFF#16⟩ ]

/-- A legal command word: some row of the opcode map accepts it (R54); every other word is reserved and
faults (R55). -/
def legalWord (w : CmdWord) : Bool :=
  opcodeMap.any (fun r => r.accepts w)

end Sys2Proof
end

