-- ==== Sys2Proof/Decode.lean ====
section
/-! DEFINITION. The decoder, total on all 65536 command words and rejecting by name, and after it the
encoder; both from the fields of spec/30_encoding.md R50 to R55. A command is presented on a 16-bit port
as one word, so there is no byte order of a fetch (R30, R43). -/

namespace Sys2Proof

/-- Why a word is no command. Both reasons are the unit's fault `IllegalCmd` (R55). -/
inductive DecodeError where
  /-- `op` is not one of the 16 opcodes (R55). -/
  | unknownOpcode (op : Byte)
  /-- The command is format N and `imm` is not 0x00 (R51, R55). -/
  | nonzeroImm (op imm : Byte)
deriving DecidableEq, Repr

/-- `op = cmd[15:8]` (R50). -/
def opField (w : CmdWord) : Byte := w.extractLsb' 8 8

/-- `imm = cmd[7:0]`, unsigned (R50, R53). -/
def immField (w : CmdWord) : Byte := w.extractLsb' 0 8

/-- A format N word: `imm` must be 0x00 (R51). -/
def formatN (op imm : Byte) (i : Instr) : Except DecodeError Instr :=
  if imm = 0#8 then .ok i else .error (.nonzeroImm op imm)

/-- The command a word selects, or why it selects none (R52 (2) and (3), R54, R55). -/
def decode (w : CmdWord) : Except DecodeError Instr :=
  match (opField w).toNat with
  | 0x10 => formatN (opField w) (immField w) .aclr
  | 0x11 => .ok (.apush (immField w))
  | 0x20 => formatN (opField w) (immField w) .rclr
  | 0x21 => .ok (.rpush (immField w))
  | 0x22 => .ok (.rldb (immField w))
  | 0x30 => formatN (opField w) (immField w) .hlast
  | 0x31 => formatN (opField w) (immField w) .htype
  | 0x32 => formatN (opField w) (immField w) .hlen
  | 0x40 => formatN (opField w) (immField w) .xminblk
  | 0x41 => formatN (opField w) (immField w) .xmaxblk
  | 0x42 => formatN (opField w) (immField w) .xminfrm
  | 0x43 => formatN (opField w) (immField w) .xmaxfrm
  | 0x44 => formatN (opField w) (immField w) .xrate
  | 0x45 => formatN (opField w) (immField w) .xchan
  | 0x46 => formatN (opField w) (immField w) .xbps
  | 0x47 => formatN (opField w) (immField w) .xtotal
  | _ => .error (.unknownOpcode (opField w))

/-- The word with the given two fields: `op` above `imm` (R50). -/
def mkWord (op imm : Byte) : CmdWord := op ++ imm

/-- The word of a command (R54): `op` from the map; `imm` the operand in format I, 0x00 in format N. -/
def encode : Instr → CmdWord
  | .aclr => mkWord 0x10#8 0x00#8
  | .apush imm => mkWord 0x11#8 imm
  | .rclr => mkWord 0x20#8 0x00#8
  | .rpush imm => mkWord 0x21#8 imm
  | .rldb imm => mkWord 0x22#8 imm
  | .hlast => mkWord 0x30#8 0x00#8
  | .htype => mkWord 0x31#8 0x00#8
  | .hlen => mkWord 0x32#8 0x00#8
  | .xminblk => mkWord 0x40#8 0x00#8
  | .xmaxblk => mkWord 0x41#8 0x00#8
  | .xminfrm => mkWord 0x42#8 0x00#8
  | .xmaxfrm => mkWord 0x43#8 0x00#8
  | .xrate => mkWord 0x44#8 0x00#8
  | .xchan => mkWord 0x45#8 0x00#8
  | .xbps => mkWord 0x46#8 0x00#8
  | .xtotal => mkWord 0x47#8 0x00#8

/-- The bits of a table row's instruction as the word on the command port: bit k of the table is bit k
of `cmd` (R54), and the bits above `nbits` are 0. -/
def tableWord (nbits w : Nat) : CmdWord := BitVec.ofNat 16 (w % 2 ^ nbits)

/-- The command the decoder reads from a table row's bits; none where it refuses, and none where the
bits do not fit the one 16-bit word every command is (R50, R57). -/
def decodeTableWord (nbits w : Nat) : Option Instr :=
  if w % 2 ^ nbits < 2 ^ 16 then
    match decode (tableWord nbits w) with
    | .ok i => some i
    | .error _ => none
  else none

end Sys2Proof
end

