-- ==== Sys2Proof/Machine/State.lean ====
section
/-! DEFINITION. The state of the unit as plain data (spec/10_state.md sections 1 and 9), what its input
ports are given, and the reasons a step of the model can stop. -/

namespace Sys2Proof.Machine

/-- The record buffer BUF: one entry (index, byte) for each WRITTEN byte, indexes strictly rising. An
unlisted index is an unwritten byte, which "holds no value" (R11). -/
abbrev Memory := List Host.Cell

/-- The unit's own faults, the one kind of exception it has (R120, R121). Taking one is a NEXT state
(`raiseFault`), not a stop of the model. -/
inductive FaultCode where
  /-- Code 1: the word is no command. -/
  | illegalCmd
  /-- Code 2: RPUSH with 34 bytes in the buffer. -/
  | bufFull
  /-- Code 3: an H command with WP other than 4. -/
  | hdrLenMismatch
  /-- Code 4: an X command with WP other than 34. -/
  | recLenMismatch
  /-- Code 5: RLDB of an index not below WP. -/
  | bufUnwritten
deriving DecidableEq, Repr

/-- Why the model itself stops. No run from reset reaches either (log 4): both need a state in which WP
and the written bytes disagree. -/
inductive Fault where
  /-- A read of a buffer byte that holds no value (R11, R33: such a read is not defined). Raised by
  `readByte`, in a state where WP counts a byte that BUF does not hold. Safe: the model stops where the
  spec gives no value. -/
  | unwrittenByte (addr : Nat)
  /-- An access to a buffer index the unit does not have: BUF is BUF[0] to BUF[33] (R11). Raised by
  `readByte` and `writeByte`, in a state with WP above 34. Safe: the spec says WP never exceeds 34 (R12). -/
  | noSuchByte (addr : Nat)
deriving DecidableEq, Repr

/-- Why a step has no meaning. -/
inductive Refusal where
  /-- The command is not modelled yet. Raised by no arm of `exec`: every command has its meaning. Safe. -/
  | notModelled (mnemonic : String)
deriving DecidableEq, Repr

/-- What the input ports show in one step (R19). -/
structure PortInput where
  /-- `rst`: reset request. -/
  rst : Bool
  /-- `cmd_valid`: a command is presented. -/
  cmdValid : Bool
  /-- `cmd`: the command word, looked at only when `cmd_valid` is 1 and `rst` is 0. -/
  cmd : CmdWord
deriving DecidableEq, Repr

/-- The state of the unit, and what its host will present. -/
structure State where
  /-- ACC, the accumulator (R10). -/
  acc : AccWord
  /-- Z, the zero flag (R14). -/
  z : Bool
  /-- OVF, the sticky overflow flag (R15). -/
  ovf : Bool
  /-- BUF, the record buffer: its written bytes (R11). -/
  buf : Memory
  /-- WP, the write pointer (R12). -/
  wp : WpWord
  /-- ERR, the sticky fault flag (R17). -/
  err : Bool
  /-- ERRC, the fault code (R17). -/
  errc : ErrcWord
  /-- ERRW, the command word that faulted (R17). -/
  errw : CmdWord
  /-- The MODEL's own field, no state of the unit (log 2): what the host presents on the input ports
  (R19) in the coming steps, the next step's first. After its end the host presents nothing. -/
  inputs : List PortInput
deriving DecidableEq, Repr

/-- The state right after reset (R22). The list of coming inputs is the model's own field; it is empty
at reset (DESIGN CHOICE, log 2). -/
def State.reset : State where
  acc := 0#64
  z := true
  ovf := false
  buf := []
  wp := 0#6
  err := false
  errc := 0#4
  errw := 0x0000#16
  inputs := []

/-- What a command's rule, and a step, answer. -/
abbrev StepResult := Host.Outcome State Fault Refusal

end Sys2Proof.Machine
end

