-- ==== Sys2Proof/Machine/Flags.lean ====
section
/-! DEFINITION. The flag computations (spec/10_state.md R14 to R16, spec/40_decoder.md R70) and the
STATUS view of the flags, the fault registers and WP (R18). -/

namespace Sys2Proof.Machine

/-- Z for a value written to ACC: 1 exactly when the value is 0 (R14, R16). -/
def zeroFlag (v : Nat) : Bool := decide (v = 0)

/-- `spill` of APUSH: `ACC[W-1:W-8] != 0`, the bits the shift will push out (R70). Written for any
accumulator width, since R73 speaks of other widths than this unit's 64. -/
def pushSpill {w : Nat} (acc : BitVec w) : Bool := decide (acc.toNat / 2 ^ (w - 8) % 2 ^ 8 ≠ 0)

/-- The new ACC of APUSH: `(ACC * 256 + imm8) mod 2^W` (R70). -/
def pushByte {w : Nat} (acc : BitVec w) (b : Byte) : BitVec w :=
  BitVec.ofNat w (acc.toNat * 256 + b.toNat)

/-- STATUS (R18), most significant field first: two zeros, WP, ERRC, a zero, ERR, OVF, Z. -/
def statusWord (s : State) : BitVec 16 :=
  0#2 ++ s.wp ++ s.errc ++ 0#1 ++ BitVec.ofBool s.err ++ BitVec.ofBool s.ovf ++ BitVec.ofBool s.z

end Sys2Proof.Machine
end

