-- ==== Sys2Proof/Machine/Ops.lean ====
section
/-! DEFINITION. The named operations over the record buffer and the registers: the big-endian value of a
byte sequence, reading and writing a buffer byte, the two ways ACC is written, the buffer's two updates,
taking a fault, and reset. Every command's meaning is written over these. -/

namespace Sys2Proof.Machine

/-- BE, the big-endian value of a byte sequence (R65): the first of n bytes has weight 256^(n-1). -/
def beValue : List Byte → Nat
  | [] => 0
  | b :: bs => b.toNat * 256 ^ bs.length + beValue bs

/-- The canonical form of the record buffer: indexes strictly rising, each one of BUF[0] to BUF[33]. An
unlisted byte holds no value, so no entry can equal what an unlisted index reads as. -/
abbrev Memory.wf (m : Memory) : Prop :=
  (m.map Prod.fst).Pairwise (· < ·) ∧ ∀ c ∈ m, c.1 < Config.bufLen

/-- The byte listed at an index, if one is. -/
def lookupCell : Memory → Nat → Option Byte
  | [], _ => none
  | (k, v) :: m, a => if k = a then some v else lookupCell m a

/-- BUF[a]: an index the unit does not have, and a byte that holds no value, stop the model (R11, R33). -/
def readByte (m : Memory) (a : Nat) : Except Fault Byte :=
  if a < Config.bufLen then
    match lookupCell m a with
    | some b => .ok b
    | none => .error (.unwrittenByte a)
  else .error (.noSuchByte a)

/-- The buffer with the byte at an index listed, in place of the one it listed there, in index order. -/
def insertCell : Memory → Nat → Byte → Memory
  | [], a, b => [(a, b)]
  | (k, v) :: m, a, b =>
    if a < k then (a, b) :: (k, v) :: m
    else if a = k then (a, b) :: m
    else (k, v) :: insertCell m a b

/-- `MemWrite(a, 1, v)`: `BUF[a] <- v` (spec/00_scope.md section 6); an index the unit does not have
stops the model (R11). -/
def writeByte (m : Memory) (a : Nat) (b : Byte) : Except Fault Memory :=
  if a < Config.bufLen then .ok (insertCell m a b) else .error (.noSuchByte a)

/-- The bytes BUF[a], BUF[a+1], ..., n of them, in that order. -/
def readBytes (m : Memory) (a : Nat) : Nat → Except Fault (List Byte)
  | 0 => .ok []
  | n + 1 =>
    match readByte m a with
    | .error e => .error e
    | .ok b =>
      match readBytes m (a + 1) n with
      | .error e => .error e
      | .ok bs => .ok (b :: bs)

/-- `WriteAcc(v)`, for v below 2^64: ACC, OVF and Z in one step (R16). -/
def writeAcc (v : Nat) (s : State) : State :=
  { s with acc := BitVec.ofNat 64 v, ovf := false, z := zeroFlag v }

/-- APUSH's update of ACC, OVF and Z, from the old ACC and the old OVF (R70). -/
def appendAcc (b : Byte) (s : State) : State :=
  { s with
    acc := pushByte s.acc b
    ovf := s.ovf || pushSpill s.acc
    z := zeroFlag (pushByte s.acc b).toNat }

/-- `WP <- 0`: every byte of BUF becomes unwritten, which is to hold no value (R81, R11). -/
def clearBuffer (s : State) : State :=
  { s with buf := [], wp := 0#6 }

/-- `BUF[WP] <- b; WP <- WP + 1` (R82), the implied sequential form of addressing (R80). -/
def appendBuffer (b : Byte) (s : State) : StepResult :=
  match writeByte s.buf s.wp.toNat b with
  | .ok m => .next { s with buf := m, wp := s.wp + 1#6 }
  | .error e => .fault e

/-- The number of a fault, as ERRC holds it (R121). -/
def faultNumber : FaultCode → ErrcWord
  | .illegalCmd => 1#4
  | .bufFull => 2#4
  | .hdrLenMismatch => 3#4
  | .recLenMismatch => 4#4
  | .bufUnwritten => 5#4

/-- Fault entry, `raise F(cmd)`: `ERR <- 1; ERRC <- c; ERRW <- cmd`, and nothing else changes (R123).
There is no return from a fault (R126): reset alone ends it. -/
def raiseFault (f : FaultCode) (cmd : CmdWord) (s : State) : State :=
  { s with err := true, errc := faultNumber f, errw := cmd }

/-- The reset event: every piece of the unit's state takes its reset value (R140, R22). What the host
presents next is not the unit's state and stays. -/
def resetUnit (s : State) : State :=
  { State.reset with inputs := s.inputs }

end Sys2Proof.Machine
end

