-- ==== Sys2Proof/Machine/Operands.lean ====
section
/-! DEFINITION. The operand forms (spec/41_record_buffer.md R80): the absolute immediate index of RLDB
and the fixed addresses of the H and X commands, with the shift and mask of each field. The implied
sequential form is `appendBuffer` of Ops.lean. -/

namespace Sys2Proof.Machine

/-- `MemRead(a, n)`: the big-endian value of BUF[a], ..., BUF[a+n-1] (R30, R33). -/
def memRead (m : Memory) (a n : Nat) : Except Fault Nat :=
  match readBytes m a n with
  | .ok bs => .ok (beValue bs)
  | .error e => .error e

/-- `BUF[0] >> 7`, the is-last-block flag (R91). -/
def hlastValue (m : Memory) : Except Fault Nat := do
  let b0 ← readByte m 0
  return b0.toNat >>> 7

/-- `BUF[0] & 0x7F`, the block type (R92). -/
def htypeValue (m : Memory) : Except Fault Nat := do
  let b0 ← readByte m 0
  return b0.toNat &&& 0x7F

/-- `MemRead(1, 3)`, the block length (R93). -/
def hlenValue (m : Memory) : Except Fault Nat := memRead m 1 3

/-- `MemRead(0, 2)`, the min block size (R102). -/
def xminblkValue (m : Memory) : Except Fault Nat := memRead m 0 2

/-- `MemRead(2, 2)`, the max block size (R103). -/
def xmaxblkValue (m : Memory) : Except Fault Nat := memRead m 2 2

/-- `MemRead(4, 3)`, the min frame size (R104). -/
def xminfrmValue (m : Memory) : Except Fault Nat := memRead m 4 3

/-- `MemRead(7, 3)`, the max frame size (R105). -/
def xmaxfrmValue (m : Memory) : Except Fault Nat := memRead m 7 3

/-- `MemRead(10, 3) >> 4`, the sample rate (R106). -/
def xrateValue (m : Memory) : Except Fault Nat := do
  let v ← memRead m 10 3
  return v >>> 4

/-- `(BUF[12] >> 1) & 0x07`, channel count − 1 (R107). DEDUCED (log 7): the spec derives this recipe
from the bit order; its document gives none. -/
def xchanValue (m : Memory) : Except Fault Nat := do
  let b12 ← readByte m 12
  return b12.toNat >>> 1 &&& 0x07

/-- `((BUF[12] & 0x01) << 4) | (BUF[13] >> 4)`, bits per sample − 1 (R108). DEDUCED (log 7), as for
`xchanValue`. -/
def xbpsValue (m : Memory) : Except Fault Nat := do
  let b12 ← readByte m 12
  let b13 ← readByte m 13
  return (b12.toNat &&& 0x01) <<< 4 ||| b13.toNat >>> 4

/-- `BE([BUF[13] & 0x0F, BUF[14], BUF[15], BUF[16], BUF[17]])`, the total samples (R109). -/
def xtotalValue (m : Memory) : Except Fault Nat := do
  let b13 ← readByte m 13
  let rest ← readBytes m 14 4
  return beValue ((b13 &&& 0x0F#8) :: rest)

/-- The shape of every H and X command: fault unless WP is exactly `len` (R90, R101), else write the
field's value to ACC. -/
def extractField (len : Nat) (f : FaultCode) (cmd : CmdWord) (value : Memory → Except Fault Nat)
    (s : State) : StepResult :=
  if s.wp.toNat = len then
    match value s.buf with
    | .ok v => .next (writeAcc v s)
    | .error e => .fault e
  else .next (raiseFault f cmd s)

/-- The shape of RLDB: fault unless the index is below WP, else write the byte to ACC (R83). -/
def loadByte (imm : Byte) (cmd : CmdWord) (s : State) : StepResult :=
  if s.wp.toNat ≤ imm.toNat then .next (raiseFault .bufUnwritten cmd s)
  else
    match readByte s.buf imm.toNat with
    | .ok b => .next (writeAcc b.toNat s)
    | .error e => .fault e

end Sys2Proof.Machine
end

