-- ==== Sys2Proof/Machine/Accumulator.lean ====
section
/-! DEFINITION. The A family: ACLR and APUSH (spec/40_decoder.md section 2). -/

namespace Sys2Proof.Machine

/-- ACLR: `WriteAcc(0)` (R69). -/
def execAclr (s : State) : StepResult := .next (writeAcc 0 s)

/-- APUSH imm8: append one byte to the sequence being decoded (R70). It faults never (R120). -/
def execApush (imm : Byte) (s : State) : StepResult := .next (appendAcc imm s)

end Sys2Proof.Machine
end

