-- ==== Sys2Proof/Machine/Header.lean ====
section
/-! DEFINITION. The H family: HLAST, HTYPE and HLEN (spec/42_header_fields.md). Each faults
`HdrLenMismatch` unless WP is exactly 4 (R90). -/

namespace Sys2Proof.Machine

/-- HLAST: the is-last-block flag (R91). -/
def execHlast (s : State) : StepResult :=
  extractField Config.hdrLen .hdrLenMismatch (encode .hlast) hlastValue s

/-- HTYPE: the 7-bit block type code (R92). -/
def execHtype (s : State) : StepResult :=
  extractField Config.hdrLen .hdrLenMismatch (encode .htype) htypeValue s

/-- HLEN: the 24-bit block length (R93). -/
def execHlen (s : State) : StepResult :=
  extractField Config.hdrLen .hdrLenMismatch (encode .hlen) hlenValue s

end Sys2Proof.Machine
end

