-- ==== Sys2Proof/Machine/RecordBuffer.lean ====
section
/-! DEFINITION. The R family: RCLR, RPUSH and RLDB (spec/41_record_buffer.md). A fault records the
command's own word, which `encode` gives (DEDUCED, log 5). -/

namespace Sys2Proof.Machine

/-- RCLR: empty the record buffer (R81). -/
def execRclr (s : State) : StepResult := .next (clearBuffer s)

/-- RPUSH imm8: append one byte to the record buffer, or `BufFull` at WP = 34 (R82). -/
def execRpush (imm : Byte) (s : State) : StepResult :=
  if s.wp.toNat = Config.bufLen then .next (raiseFault .bufFull (encode (.rpush imm)) s)
  else appendBuffer imm s

/-- RLDB imm8: load one written byte, or `BufUnwritten` (R83). -/
def execRldb (imm : Byte) (s : State) : StepResult := loadByte imm (encode (.rldb imm)) s

end Sys2Proof.Machine
end

