-- ==== Sys2Proof/Machine/Streaminfo.lean ====
section
/-! DEFINITION. The X family: the eight STREAMINFO fields (spec/43_streaminfo_fields.md). Each faults
`RecLenMismatch` unless WP is exactly 34 (R101). -/

namespace Sys2Proof.Machine

/-- XMINBLK: min block size (R102). -/
def execXminblk (s : State) : StepResult :=
  extractField Config.recLen .recLenMismatch (encode .xminblk) xminblkValue s

/-- XMAXBLK: max block size (R103). -/
def execXmaxblk (s : State) : StepResult :=
  extractField Config.recLen .recLenMismatch (encode .xmaxblk) xmaxblkValue s

/-- XMINFRM: min frame size (R104). -/
def execXminfrm (s : State) : StepResult :=
  extractField Config.recLen .recLenMismatch (encode .xminfrm) xminfrmValue s

/-- XMAXFRM: max frame size (R105). -/
def execXmaxfrm (s : State) : StepResult :=
  extractField Config.recLen .recLenMismatch (encode .xmaxfrm) xmaxfrmValue s

/-- XRATE: 20-bit sample rate (R106); a zero rate is a value like any other and no fault. -/
def execXrate (s : State) : StepResult :=
  extractField Config.recLen .recLenMismatch (encode .xrate) xrateValue s

/-- XCHAN: 3-bit channel count − 1 (R107). -/
def execXchan (s : State) : StepResult :=
  extractField Config.recLen .recLenMismatch (encode .xchan) xchanValue s

/-- XBPS: 5-bit bits per sample − 1 (R108). -/
def execXbps (s : State) : StepResult :=
  extractField Config.recLen .recLenMismatch (encode .xbps) xbpsValue s

/-- XTOTAL: 36-bit total samples (R109). -/
def execXtotal (s : State) : StepResult :=
  extractField Config.recLen .recLenMismatch (encode .xtotal) xtotalValue s

end Sys2Proof.Machine
end

