-- ==== Sys2Proof/Machine/Dispatch.lean ====
section
/-! DEFINITION. One arm per command: the body of the selected command's rule (spec/30_encoding.md R52 (4)).
That a frozen unit ignores the command stands in the step's frame, Ports.lean, as in the spec (log 6). -/

namespace Sys2Proof.Machine

def exec (i : Instr) (s : State) : Host.Outcome State Fault Refusal :=
  match i with
  | .aclr => Sys2Proof.Machine.execAclr s
  | .apush imm => Sys2Proof.Machine.execApush imm s
  | .rclr => Sys2Proof.Machine.execRclr s
  | .rpush imm => Sys2Proof.Machine.execRpush imm s
  | .rldb imm => Sys2Proof.Machine.execRldb imm s
  | .hlast => Sys2Proof.Machine.execHlast s
  | .htype => Sys2Proof.Machine.execHtype s
  | .hlen => Sys2Proof.Machine.execHlen s
  | .xminblk => Sys2Proof.Machine.execXminblk s
  | .xmaxblk => Sys2Proof.Machine.execXmaxblk s
  | .xminfrm => Sys2Proof.Machine.execXminfrm s
  | .xmaxfrm => Sys2Proof.Machine.execXmaxfrm s
  | .xrate => Sys2Proof.Machine.execXrate s
  | .xchan => Sys2Proof.Machine.execXchan s
  | .xbps => Sys2Proof.Machine.execXbps s
  | .xtotal => Sys2Proof.Machine.execXtotal s

end Sys2Proof.Machine
end

