-- ==== Sys2Proof/Machine/Ports.lean ====
section
/-! DEFINITION. The ports of the unit (spec/10_state.md R19, R20): what a step does with its inputs, in
the order of priority of spec/60_exceptions.md R122, and what the outputs show. -/

namespace Sys2Proof.Machine

/-- A step that executes a command (R52): a frozen unit ignores it (R125); a word that selects no
command raises `IllegalCmd` (R55); else the command's rule runs. -/
def acceptCommand (w : CmdWord) (s : State) : StepResult :=
  if s.err then .next s
  else
    match decode w with
    | .ok i => exec i s
    | .error _ => .next (raiseFault .illegalCmd w s)

/-- One evaluation of the inputs (R19): `rst` beats everything; else a command, if one is presented;
else nothing changes. -/
def evalInputs (p : PortInput) (s : State) : StepResult :=
  if p.rst then .next (resetUnit s)
  else if p.cmdValid then acceptCommand p.cmd s
  else .next s

/-- One step: the host's next input, taken off the list of coming inputs; past its end the host presents
nothing, which is an idle step (R19; log 2). -/
def portStep (s : State) : StepResult :=
  match s.inputs with
  | [] => .next s
  | p :: rest => evalInputs p { s with inputs := rest }

/-- The host presents a command word (R19). -/
def presentWord (w : CmdWord) : PortInput := { rst := false, cmdValid := true, cmd := w }

/-- The host asserts `rst` (R140); the other inputs are not looked at. -/
def presentReset : PortInput := { rst := true, cmdValid := false, cmd := 0#16 }

/-- The host presents nothing: an idle step, "how a host does nothing" (R56). -/
def presentIdle : PortInput := { rst := false, cmdValid := false, cmd := 0#16 }

/-- The word is what the host presents in the very next step (log 3). -/
def presentNext (w : CmdWord) (s : State) : State :=
  { s with inputs := presentWord w :: s.inputs }

/-- Output port `acc` (R20). -/
def accPort (s : State) : AccWord := s.acc

/-- Output port `status` (R20, R18). -/
def statusPort (s : State) : BitVec 16 := statusWord s

/-- Output port `errw` (R20). -/
def errwPort (s : State) : CmdWord := s.errw

end Sys2Proof.Machine
end

