-- ==== Sys2Proof/Machine/Step.lean ====
section
/-! DEFINITION. The step, and how the host of this pipeline places an instruction. -/

namespace Sys2Proof.Machine

/-- One step of the unit (R19). -/
def step (s : State) : Host.Outcome State Fault Refusal := portStep s

/-- BFD fetches nothing (R13): its host presents each command on the command port. Placing an instruction
is therefore presenting its word in the very next step (log 3). -/
def State.withFetchWord (s : State) (nbits w : Nat) : State :=
  presentNext (tableWord nbits w) s

end Sys2Proof.Machine
end

