-- ==== Sys2Proof/Machine/Unpack.lean ====
section
/-! DEFINITION. The two records as pure functions of their bytes, apart from the machine: bit-aligned
slices (spec/20_memory.md R36), the header's fields (spec/42_header_fields.md) and the STREAMINFO
unpacker "as one pure function" (spec/43_streaminfo_fields.md R113). -/

namespace Sys2Proof.Machine

/-- `bit(q)` of a byte sequence seen as one bit stream: bit `7 - (q mod 8)` of byte `floor(q / 8)` (R36);
none past the last byte. -/
def streamBit (bs : List Byte) (q : Nat) : Option Nat :=
  (bs[q / 8]?).map (fun b => b.toNat / 2 ^ (7 - q % 8) % 2)

/-- `slice(p, n)`: stream positions p to p+n-1, position p most significant (R36). A notation, no
operation of the unit; none where it reaches past the last byte. -/
def slice (bs : List Byte) (p : Nat) : Nat → Option Nat
  | 0 => some 0
  | n + 1 =>
    match streamBit bs p, slice bs (p + 1) n with
    | some b, some v => some (b * 2 ^ n + v)
    | _, _ => none

/-- The three fields of a metadata block header (R91 to R93). -/
structure HeaderFields where
  isLast : Nat
  blockType : Nat
  blockLength : Nat
deriving DecidableEq, Repr

/-- The fields of four header bytes (R91 to R93). -/
def unpackHeader (h : Vector Byte 4) : HeaderFields where
  isLast := h[0].toNat >>> 7
  blockType := h[0].toNat &&& 0x7F
  blockLength := h[1].toNat * 65536 + h[2].toNat * 256 + h[3].toNat

/-- The nine fields of a STREAMINFO record (R100). -/
structure StreamInfo where
  minBlock : Nat
  maxBlock : Nat
  minFrame : Nat
  maxFrame : Nat
  sampleRate : Nat
  channelsMinus1 : Nat
  bitsPerSampleMinus1 : Nat
  totalSamples : Nat
  md5 : Vector Byte 16
deriving DecidableEq, Repr

/-- The full unpacker: "all eight integers of rules R102 to R109 and the 16 MD5 bytes" (R113, R110). -/
def unpack (r : Vector Byte 34) : StreamInfo where
  minBlock := r[0].toNat * 256 + r[1].toNat
  maxBlock := r[2].toNat * 256 + r[3].toNat
  minFrame := r[4].toNat * 65536 + r[5].toNat * 256 + r[6].toNat
  maxFrame := r[7].toNat * 65536 + r[8].toNat * 256 + r[9].toNat
  sampleRate := beValue [r[10], r[11], r[12]] >>> 4
  channelsMinus1 := r[12].toNat >>> 1 &&& 0x07
  bitsPerSampleMinus1 := (r[12].toNat &&& 0x01) <<< 4 ||| r[13].toNat >>> 4
  totalSamples := beValue [r[13] &&& 0x0F#8, r[14], r[15], r[16], r[17]]
  md5 := Vector.ofFn (fun k : Fin 16 => r[18 + k.val])

end Sys2Proof.Machine
end

