-- ==== Sys2Proof/Machine/Pseudo.lean ====
section
/-! DEFINITION. The pseudo-instructions (spec/30_encoding.md R60): fixed sequences of commands, none with
an encoding of its own; and a sequence of commands as the host presents it. -/

namespace Sys2Proof.Machine

/-- A pseudo-instruction (R60). -/
inductive Pseudo where
  /-- `DECODE b0, ..., bn-1`, n at least 0. -/
  | decode (bs : List Byte)
  /-- `LOADHDR b0, b1, b2, b3`. -/
  | loadHdr (bs : List Byte)
  /-- `LOADREC b0, ..., b33`. -/
  | loadRec (bs : List Byte)
  /-- `RMD5 k`, byte k of the audio MD5 signature. -/
  | rmd5 (k : Nat)
deriving DecidableEq, Repr

/-- The operands R60 allows: four bytes for LOADHDR, exactly 34 for LOADREC, 0 to 15 for RMD5. -/
def Pseudo.wf : Pseudo → Bool
  | .decode _ => true
  | .loadHdr bs => decide (bs.length = Config.hdrLen)
  | .loadRec bs => decide (bs.length = Config.recLen)
  | .rmd5 k => decide (k ≤ 15)

/-- The expansion column of R60. -/
def Pseudo.expand : Pseudo → List Instr
  | .decode bs => .aclr :: bs.map .apush
  | .loadHdr bs => .rclr :: bs.map .rpush
  | .loadRec bs => .rclr :: bs.map .rpush
  | .rmd5 k => [.rldb (BitVec.ofNat 8 (18 + k))]

/-- The commands, presented one a step (R40). -/
def presentAll (is : List Instr) : List PortInput := is.map (fun i => presentWord (encode i))

/-- The bytes a command sequence pushes into the accumulator, in order (R71). -/
def pushedBytes : List Instr → List Byte
  | [] => []
  | .apush b :: is => b :: pushedBytes is
  | _ :: is => pushedBytes is

end Sys2Proof.Machine
end

