-- ==== Sys2Proof/Safety.lean ====
section
/-! DEFINITION. What claims say about states and runs: a run of steps, the invariants of every reachable
state (spec/10_state.md R23 and the form of the record buffer), and a good end (spec/70 R155). -/

namespace Sys2Proof.Machine

/-- `n` steps; a stop of the model ends the run. -/
def runSteps : Nat → State → StepResult
  | 0, s => .next s
  | n + 1, s =>
    match step s with
    | .next t => runSteps n t
    | .fault e => .fault e
    | .refused r => .refused r

/-- The buffer bytes, from BUF[0] on, are exactly `bs`: WP counts them and each reads as given. -/
def Holds (bs : List Byte) (s : State) : Prop :=
  s.wp.toNat = bs.length ∧ readBytes s.buf 0 bs.length = .ok bs

/-- The record buffer's own invariant: canonical form, WP at most 34 (R12), and the bytes that hold a
value are exactly those below WP (R11). -/
def BufferInv (s : State) : Prop :=
  Memory.wf s.buf ∧ s.wp.toNat ≤ Config.bufLen ∧ s.buf.map Prod.fst = List.range s.wp.toNat

/-- `Z == (ACC == 0)` (R14, R23 (b)). -/
def FlagInv (s : State) : Prop := s.z = decide (s.acc = 0#64)

/-- No fault, no code and no word; a fault, a code from 1 to 5 (R17, R23 (c) and (d)). -/
def FaultInv (s : State) : Prop :=
  (s.err = false → s.errc = 0#4 ∧ s.errw = 0#16) ∧
    (s.err = true → 1 ≤ s.errc.toNat ∧ s.errc.toNat ≤ 5)

/-- The invariant of the unit. -/
def UnitInv (s : State) : Prop := BufferInv s ∧ FlagInv s ∧ FaultInv s

/-- A state some run from reset reaches, whatever the host presents (R23). -/
def Reachable (s : State) : Prop :=
  ∃ inputs n, runSteps n { State.reset with inputs := inputs } = .next s

/-- A run is good when ERR = 0 at its end (R155). -/
def goodEnd (s : State) : Bool := !s.err

end Sys2Proof.Machine
end

