-- ==== Sys2Proof/Certificates/Slice0/Obligations.lean ====
section
/-! DEFINITION. The statements for the provers. Each docstring names the rule of spec/ it formalises;
where the spec marks a rule '[derived: ...]', its own inference, the docstring says so. A statement that
mentions `State.inputs` speaks of the model's own list of what the host presents (log 2). -/

namespace Sys2Proof.Claims

open Sys2Proof.Machine

/-- What an H or X command's rule says, for a command whose record has `len` bytes: its word; the fault,
and nothing else, when WP is not `len`; else ACC gets the field's value, Z its zero test, OVF 0, and
nothing else changes; and that value is the slice of `n` bits at stream position `p`. -/
def FieldRule (i : Instr) (word : CmdWord) (len : Nat) (code : ErrcWord)
    (value : Vector Byte len → Nat) (p n : Nat) : Prop :=
  encode i = word ∧ decode word = .ok i ∧
  (∀ s : State, s.wp.toNat ≠ len →
    exec i s = .next { s with err := true, errc := code, errw := word }) ∧
  (∀ (s : State) (r : Vector Byte len), Holds r.toList s →
    exec i s = .next
      { s with acc := BitVec.ofNat 64 (value r), ovf := false, z := decide (value r = 0) } ∧
    slice r.toList p n = some (value r) ∧ value r < 2 ^ n)

/-- A command leaves the value `v` in ACC, and the buffer, WP and the fault registers as they were. -/
def LeavesInAcc (i : Instr) (s : State) (v : Nat) : Prop :=
  ∃ t, exec i s = .next t ∧ t.acc.toNat = v ∧ t.z = decide (v = 0) ∧ t.ovf = false ∧
    t.buf = s.buf ∧ t.wp = s.wp ∧ t.err = s.err ∧ t.errc = s.errc ∧ t.errw = s.errw ∧
    t.inputs = s.inputs

/-- The two records' readers: RLDB, the H commands and the X commands. -/
def Reads : Instr → Bool
  | .aclr => false
  | .apush _ => false
  | .rclr => false
  | .rpush _ => false
  | .rldb _ => true
  | .hlast => true
  | .htype => true
  | .hlen => true
  | .xminblk => true
  | .xmaxblk => true
  | .xminfrm => true
  | .xmaxfrm => true
  | .xrate => true
  | .xchan => true
  | .xbps => true
  | .xtotal => true

/-- The family of a command, as R54 numbers it: 1 = A, 2 = R, 3 = H, 4 = X. -/
def Family : Instr → BitVec 4
  | .aclr => 1#4
  | .apush _ => 1#4
  | .rclr => 2#4
  | .rpush _ => 2#4
  | .rldb _ => 2#4
  | .hlast => 3#4
  | .htype => 3#4
  | .hlen => 3#4
  | .xminblk => 4#4
  | .xmaxblk => 4#4
  | .xminfrm => 4#4
  | .xmaxfrm => 4#4
  | .xrate => 4#4
  | .xchan => 4#4
  | .xbps => 4#4
  | .xtotal => 4#4

/-- The table of R121, column "condition": the code a command raises when the write pointer is `wp`. -/
def TableFault (i : Instr) (wp : Nat) : Option ErrcWord :=
  match i with
  | .aclr => none
  | .apush _ => none
  | .rclr => none
  | .rpush _ => if wp = 34 then some 2#4 else none
  | .rldb imm => if imm.toNat ≥ wp then some 5#4 else none
  | .hlast => if wp ≠ 4 then some 3#4 else none
  | .htype => if wp ≠ 4 then some 3#4 else none
  | .hlen => if wp ≠ 4 then some 3#4 else none
  | .xminblk => if wp ≠ 34 then some 4#4 else none
  | .xmaxblk => if wp ≠ 34 then some 4#4 else none
  | .xminfrm => if wp ≠ 34 then some 4#4 else none
  | .xmaxfrm => if wp ≠ 34 then some 4#4 else none
  | .xrate => if wp ≠ 34 then some 4#4 else none
  | .xchan => if wp ≠ 34 then some 4#4 else none
  | .xbps => if wp ≠ 34 then some 4#4 else none
  | .xtotal => if wp ≠ 34 then some 4#4 else none

/-- `f` applied to the next state, where there is one. -/
def mapNext (f : State → State) : StepResult → StepResult
  | .next t => .next (f t)
  | .fault e => .fault e
  | .refused r => .refused r

end Sys2Proof.Claims

open Sys2Proof Sys2Proof.Machine Sys2Proof.Claims

/-! ### Reset, the ports and the step -/

/-- R22: what reset leaves in every piece of state and on every port. -/
def Obligations.ResetLeavesTheStatedValues : Prop :=
  State.reset.acc = 0#64 ∧ State.reset.z = true ∧ State.reset.ovf = false ∧
  State.reset.wp = 0#6 ∧ (∀ a b, readByte State.reset.buf a ≠ .ok b) ∧
  State.reset.err = false ∧ State.reset.errc = 0#4 ∧ State.reset.errw = 0#16 ∧
  accPort State.reset = 0#64 ∧ statusPort State.reset = 0x0001#16 ∧ errwPort State.reset = 0x0000#16

/-- R140: a step with `rst` = 1 resets every piece of state, whatever the other inputs and the state;
and no other step clears ERR. -/
def Obligations.RstResetsTheUnitAndNothingElseClearsErr : Prop :=
  (∀ (s : State) (p : PortInput) (rest : List PortInput), s.inputs = p :: rest → p.rst = true →
    ∃ t, step s = .next t ∧ t = { State.reset with inputs := rest } ∧
      accPort t = 0#64 ∧ statusPort t = 0x0001#16 ∧ errwPort t = 0x0000#16) ∧
  (∀ s t : State, s.err = true → step s = .next t → t.err = false →
    ∃ p rest, s.inputs = p :: rest ∧ p.rst = true)

/-- R19: `rst` first, then a presented command, else an idle step that changes nothing. -/
def Obligations.InputPortsSelectWhatTheStepDoes : Prop :=
  ∀ (s : State) (p : PortInput) (rest : List PortInput), s.inputs = p :: rest →
    (p.rst = true → step s = .next { State.reset with inputs := rest }) ∧
    (p.rst = false → p.cmdValid = true → step s = acceptCommand p.cmd { s with inputs := rest }) ∧
    (p.rst = false → p.cmdValid = false → step s = .next { s with inputs := rest })

/-- R52: a step that executes a command: a frozen unit ignores it; a word that selects no command raises
`IllegalCmd` (code 1); otherwise the step is the command's rule, which either changes only ERR, ERRC and
ERRW or leaves them and completes. Taking the input off the list is the model's (log 2). -/
def Obligations.StepRunsTheDecodedCommand : Prop :=
  ∀ (s : State) (w : CmdWord) (rest : List PortInput), s.inputs = presentWord w :: rest →
    (s.err = true → step s = .next { s with inputs := rest }) ∧
    (∀ e, s.err = false → decode w = .error e →
      step s = .next { s with inputs := rest, err := true, errc := 1#4, errw := w }) ∧
    (∀ i, s.err = false → decode w = .ok i →
      step s = exec i { s with inputs := rest } ∧
      ∀ t, step s = .next t →
        (t = { s with inputs := rest, err := true, errc := t.errc, errw := w }) ∨
        (t.err = false ∧ t.errc = s.errc ∧ t.errw = s.errw))

/-- R125: while ERR is 1 every step without `rst` changes no state, however many there are, whatever they
present and whatever comes after them; the outputs stay as they are; only reset ends this. -/
def Obligations.FrozenUnitIgnoresEveryCommand : Prop :=
  (∀ (n : Nat) (s : State), s.err = true → (∀ p ∈ s.inputs.take n, p.rst = false) →
    runSteps n s = .next { s with inputs := s.inputs.drop n } ∧
    ∀ t, runSteps n s = .next t →
      accPort t = accPort s ∧ statusPort t = statusPort s ∧ errwPort t = errwPort s) ∧
  (∀ (n : Nat) (s t : State), s.err = true → runSteps n s = .next t → t.err = false →
    ∃ p ∈ s.inputs.take n, p.rst = true)

/-- R55: a word whose `op` is none of the 16 opcodes, or a format N word whose `imm` is not 0, raises
`IllegalCmd` with the word in ERRW, whatever the buffer holds. -/
def Obligations.ReservedWordsRaiseIllegalCmd : Prop :=
  ∀ w : CmdWord,
    (opField w ∉ [0x10#8, 0x11#8, 0x20#8, 0x21#8, 0x22#8, 0x30#8, 0x31#8, 0x32#8, 0x40#8, 0x41#8,
        0x42#8, 0x43#8, 0x44#8, 0x45#8, 0x46#8, 0x47#8] ∨
      (opField w ∉ [0x11#8, 0x21#8, 0x22#8] ∧ immField w ≠ 0x00#8)) ↔
    ∀ (s : State) (rest : List PortInput), s.err = false → s.inputs = presentWord w :: rest →
      step s = .next { s with inputs := rest, err := true, errc := 1#4, errw := w }

/-- R18, R20: the layout of STATUS, its reserved bits, what each output port shows, and that no output
depends on what the input ports are given. -/
def Obligations.OutputPortsShowTheState : Prop :=
  ∀ s : State,
    (statusPort s).getLsbD 0 = s.z ∧ (statusPort s).getLsbD 1 = s.ovf ∧
    (statusPort s).getLsbD 2 = s.err ∧ (statusPort s).getLsbD 3 = false ∧
    (statusPort s).extractLsb' 4 4 = s.errc ∧ (statusPort s).extractLsb' 8 6 = s.wp ∧
    (statusPort s).extractLsb' 14 2 = 0#2 ∧
    accPort s = s.acc ∧ errwPort s = s.errw ∧
    ∀ inputs : List PortInput, accPort { s with inputs := inputs } = accPort s ∧
      statusPort { s with inputs := inputs } = statusPort s ∧
      errwPort { s with inputs := inputs } = errwPort s

/-- The model's own (log 2): a step that goes on takes exactly one input off the list of coming inputs, and
past the end of the list the host presents nothing, so that a step is idle. -/
def Obligations.StepConsumesOneInput : Prop :=
  (∀ s t : State, step s = .next t → t.inputs = s.inputs.tail) ∧
  (∀ s : State, s.inputs = [] → step s = .next s)

/-! ### Encoding -/

/-- R54: the decoder gives a command exactly for the words its row of the map accepts by match and
mask, with the word's low byte as the operand where the command has one; and the high nibble of `op` is
the command's family. -/
def Obligations.OpcodeMapIsTheDecoder : Prop :=
  (∀ (w : CmdWord) (i : Instr),
    decode w = .ok i ↔
      (∃ row ∈ opcodeMap, row.accepts w = true ∧ row.mnemonic = i.mnemonic) ∧
      (i.operand = none ∨ i.operand = some (immField w))) ∧
  (∀ (w : CmdWord) (i : Instr), decode w = .ok i → w.extractLsb' 12 4 = Family i)

/-- 30_encoding.md section 4: no word matches two rows (the spec marks it derived), and 781 words are
legal. -/
def Obligations.OpcodePatternsDisjointAndCounted : Prop :=
  (∀ (w : CmdWord) (a b : OpcodeRow), a ∈ opcodeMap → b ∈ opcodeMap →
    a.accepts w = true → b.accepts w = true → a = b) ∧
  ((Finset.range 65536).filter (fun k => legalWord (BitVec.ofNat 16 k) = true)).card = 781

/-- Decode and encode agree, both ways: no bit of an encoding is dropped, and each word has one meaning. -/
def Obligations.DecodeEncodeRoundTrip : Prop :=
  (∀ i : Instr, i.wf = true → decode (encode i) = .ok i) ∧
  (∀ (w : CmdWord) (i : Instr), decode w = .ok i → encode i = w)

/-- Words written out from the encodings of the spec's rules and vectors decode to the commands they
stand for (30_encoding.md section 4; 95_test_vectors.md). -/
def Obligations.SpecWordsDecodeAsWritten : Prop :=
  decode 0x1000#16 = .ok .aclr ∧ decode 0x1112#16 = .ok (.apush 0x12#8) ∧
  decode 0x2000#16 = .ok .rclr ∧ decode 0x2184#16 = .ok (.rpush 0x84#8) ∧
  decode 0x2221#16 = .ok (.rldb 33#8) ∧ decode 0x3000#16 = .ok .hlast ∧
  decode 0x3100#16 = .ok .htype ∧ decode 0x3200#16 = .ok .hlen ∧
  decode 0x4000#16 = .ok .xminblk ∧ decode 0x4700#16 = .ok .xtotal ∧
  decode 0x1001#16 = .error (.nonzeroImm 0x10#8 0x01#8) ∧
  decode 0x4401#16 = .error (.nonzeroImm 0x44#8 0x01#8) ∧
  decode 0x0000#16 = .error (.unknownOpcode 0x00#8) ∧
  decode 0xFFFF#16 = .error (.unknownOpcode 0xFF#8)

/-- 30_encoding.md section 3: the immediate is the low byte, unsigned, in all three format I commands,
every value legal; RLDB with 34 to 255 always faults `BufUnwritten`, WP being at most 34. -/
def Obligations.ImmediateIsAnUnsignedByte : Prop :=
  (∀ b : Byte,
    decode (BitVec.ofNat 16 (0x1100 + b.toNat)) = .ok (.apush b) ∧
    decode (BitVec.ofNat 16 (0x2100 + b.toNat)) = .ok (.rpush b) ∧
    decode (BitVec.ofNat 16 (0x2200 + b.toNat)) = .ok (.rldb b)) ∧
  (∀ (b : Byte) (s : State), s.wp.toNat ≤ 34 → 34 ≤ b.toNat →
    exec (.rldb b) s =
      .next { s with err := true, errc := 5#4, errw := BitVec.ofNat 16 (0x2200 + b.toNat) })

/-! ### The big-endian decode and the A family -/

/-- R65: BE is the weighted sum of the bytes, the first of n with weight 256^(n-1). -/
def Obligations.BigEndianValueIsTheWeightedSum : Prop :=
  ∀ bs : List Byte,
    beValue bs = ∑ i : Fin bs.length, bs[i].toNat * 256 ^ (bs.length - 1 - i.val)

/-- 40_decoder.md section 1 (R66): the laws (a) to (f) of BE; the spec derives (d) to (f) from R65. -/
def Obligations.BigEndianLaws : Prop :=
  beValue [] = 0 ∧ (∀ b : Byte, beValue [b] = b.toNat) ∧ beValue [0x01#8, 0x00#8] = 256 ∧
  (∀ (s : List Byte) (b : Byte), beValue (s ++ [b]) = beValue s * 256 + b.toNat) ∧
  (∀ (b : Byte) (s : List Byte), beValue ([b] ++ s) = b.toNat * 256 ^ s.length + beValue s) ∧
  (∀ s t : List Byte, beValue (s ++ t) = beValue s * 256 ^ t.length + beValue t)

/-- 40_decoder.md section 1 (R67, which the spec derives from R65): range, bijection at one fixed length,
leading zeros. -/
def Obligations.BigEndianRangeAndBijection : Prop :=
  (∀ s : List Byte, beValue s < 256 ^ s.length) ∧
  (∀ n v : Nat, v < 256 ^ n → ∃! s : List Byte, s.length = n ∧ beValue s = v) ∧
  (∀ s : List Byte, beValue ([0#8] ++ s) = beValue s)

/-- R69: ACLR writes 0, Z = 1, OVF = 0 and nothing else; twice is as once; at reset it changes nothing. -/
def Obligations.AclrClearsTheAccumulator : Prop :=
  encode .aclr = 0x1000#16 ∧ decode 0x1000#16 = .ok .aclr ∧
  (∀ s : State, exec .aclr s = .next { s with acc := 0#64, ovf := false, z := true }) ∧
  (∀ s t : State, exec .aclr s = .next t → exec .aclr t = .next t) ∧
  exec .aclr State.reset = .next State.reset

/-- R70: APUSH shifts the old ACC by a byte and adds the immediate modulo 2^64; OVF is sticky and takes
the spill of the old ACC; Z is the test of the new ACC; nothing else changes. -/
def Obligations.ApushAppendsOneByte : Prop :=
  ∀ b : Byte, encode (.apush b) = 0x1100#16 ||| b.setWidth 16 ∧
    decode (0x1100#16 ||| b.setWidth 16) = .ok (.apush b) ∧
    ∀ s : State, ∃ t,
      exec (.apush b) s = .next t ∧
      t = { s with acc := t.acc, ovf := t.ovf, z := t.z } ∧
      t.acc.toNat = (s.acc.toNat * 256 + b.toNat) % 2 ^ 64 ∧
      t.acc = s.acc <<< 8 ||| b.setWidth 64 ∧
      t.ovf = (s.ovf || decide (s.acc.extractLsb' 56 8 ≠ 0#8)) ∧
      t.z = decide (t.acc = 0#64)

/-- 40_decoder.md section 3 (R71 and R72, which the spec derives from R66(d), R69 and R70): ACLR and then
any pushes, with RCLR and RPUSH among them, and no fault, leave BE of the pushed bytes modulo 2^64; OVF
says exactly when that is not BE itself. -/
def Obligations.AccumulatorDecodesThePushedBytes : Prop :=
  ∀ (is : List Instr) (rest : List PortInput) (s t : State), s.err = false →
    (∀ i ∈ is, i = .rclr ∨ (∃ b, i = .apush b) ∨ ∃ b, i = .rpush b) →
    s.inputs = presentAll (.aclr :: is) ++ rest →
    runSteps (is.length + 1) s = .next t → t.err = false →
    t.acc.toNat = beValue (pushedBytes is) % 2 ^ 64 ∧
    t.z = decide (t.acc = 0#64) ∧
    t.ovf = decide (2 ^ 64 ≤ beValue (pushedBytes is)) ∧
    (t.ovf = false → t.acc.toNat = beValue (pushedBytes is))

/-- 30_encoding.md section 8 (R60) and 40_decoder.md section 3: `DECODE b0, ..., bn-1` completes from
every state that is not frozen, and changes ACC, Z and OVF alone. -/
def Obligations.DecodePseudoInstructionCompletes : Prop :=
  ∀ (bs : List Byte) (rest : List PortInput) (s : State), s.err = false →
    s.inputs = presentAll (Pseudo.decode bs).expand ++ rest →
    runSteps (bs.length + 1) s = .next
      { s with
        acc := BitVec.ofNat 64 (beValue bs)
        z := decide (beValue bs % 2 ^ 64 = 0)
        ovf := decide (2 ^ 64 ≤ beValue bs)
        inputs := rest }

/-- 40_decoder.md section 3 (R74, which the spec derives): pushing the bytes `bs` onto ACC = v with
OVF = 0 gives v * 256^n + BE(bs) modulo 2^64, and OVF exactly when that does not fit. -/
def Obligations.PushingContinuesFromTheAccumulator : Prop :=
  ∀ (bs : List Byte) (rest : List PortInput) (s : State), s.err = false → s.ovf = false →
    s.inputs = presentAll (bs.map .apush) ++ rest →
    ∃ t, runSteps bs.length s = .next t ∧
      t = { s with acc := t.acc, z := t.z, ovf := t.ovf, inputs := rest } ∧
      t.acc.toNat = (s.acc.toNat * 256 ^ bs.length + beValue bs) % 2 ^ 64 ∧
      t.ovf = decide (2 ^ 64 ≤ s.acc.toNat * 256 ^ bs.length + beValue bs)

/-- 40_decoder.md section 3 (R73, which the spec derives): at most eight bytes always fit; a longer
sequence overflows exactly when a byte other than its last eight is not zero; and the five bytes of
total samples, the first masked, fit an accumulator of any width from 36. -/
def Obligations.HowManyBytesFit : Prop :=
  (∀ bs : List Byte, bs.length ≤ 8 → beValue bs < 2 ^ 64) ∧
  (∀ bs : List Byte, 8 < bs.length →
    (2 ^ 64 ≤ beValue bs ↔ ∃ b ∈ bs.take (bs.length - 8), b ≠ 0#8)) ∧
  (∀ (w : Nat) (b0 b1 b2 b3 b4 : Byte), 36 ≤ w →
    let a1 := pushByte (0#w) (b0 &&& 0x0F#8)
    let a2 := pushByte a1 b1
    let a3 := pushByte a2 b2
    let a4 := pushByte a3 b3
    pushSpill (0#w) = false ∧ pushSpill a1 = false ∧ pushSpill a2 = false ∧ pushSpill a3 = false ∧
      pushSpill a4 = false ∧
      (pushByte a4 b4).toNat = beValue [b0 &&& 0x0F#8, b1, b2, b3, b4])

/-! ### The record buffer -/

/-- R81: RCLR sets WP to 0 and leaves every byte unwritten, so that a read of any index faults until it
is written again; ACC, the flags and the fault registers are unchanged; at WP = 0 with nothing held it
changes nothing. -/
def Obligations.RclrEmptiesTheBuffer : Prop :=
  encode .rclr = 0x2000#16 ∧ decode 0x2000#16 = .ok .rclr ∧
  (∀ s : State, ∃ t, exec .rclr s = .next t ∧ t = { s with buf := t.buf, wp := 0#6 } ∧
    (∀ a b, readByte t.buf a ≠ .ok b) ∧
    (∀ k : Byte, exec (.rldb k) t =
      .next { t with err := true, errc := 5#4, errw := 0x2200#16 ||| k.setWidth 16 }) ∧
    (statusPort t).extractLsb' 8 6 = 0#6) ∧
  (∀ s : State, UnitInv s → s.wp = 0#6 → exec .rclr s = .next s)

/-- R82: RPUSH at WP = 34 raises `BufFull` (code 2) and changes nothing else; below 34 it stores the byte
at WP, moves WP on by one, and leaves every other byte and register as it was. -/
def Obligations.RpushAppendsToTheBuffer : Prop :=
  ∀ (b : Byte) (s : State),
    encode (.rpush b) = 0x2100#16 ||| b.setWidth 16 ∧
    decode (0x2100#16 ||| b.setWidth 16) = .ok (.rpush b) ∧
    (s.wp.toNat = 34 → exec (.rpush b) s =
      .next { s with err := true, errc := 2#4, errw := 0x2100#16 ||| b.setWidth 16 }) ∧
    (s.wp.toNat < 34 → ∃ t, exec (.rpush b) s = .next t ∧
      t = { s with buf := t.buf, wp := t.wp } ∧ t.wp.toNat = s.wp.toNat + 1 ∧
      readByte t.buf s.wp.toNat = .ok b ∧
      (∀ a, a ≠ s.wp.toNat → readByte t.buf a = readByte s.buf a) ∧
      (∀ bs, Holds bs s → Holds (bs ++ [b]) t))

/-- R83: RLDB of an index not below WP raises `BufUnwritten` (code 5) and changes nothing else, which
takes in every index from 34 on; else ACC gets the byte, zero-extended, with Z its zero test and OVF 0. -/
def Obligations.RldbLoadsOneWrittenByte : Prop :=
  ∀ (k : Byte) (s : State),
    encode (.rldb k) = 0x2200#16 ||| k.setWidth 16 ∧
    decode (0x2200#16 ||| k.setWidth 16) = .ok (.rldb k) ∧
    (s.wp.toNat ≤ k.toNat → exec (.rldb k) s =
      .next { s with err := true, errc := 5#4, errw := 0x2200#16 ||| k.setWidth 16 }) ∧
    (∀ b, k.toNat < s.wp.toNat → readByte s.buf k.toNat = .ok b →
      exec (.rldb k) s = .next { s with acc := b.setWidth 64, ovf := false, z := decide (b = 0#8) }) ∧
    (UnitInv s → k.toNat < s.wp.toNat → ∃ b, readByte s.buf k.toNat = .ok b) ∧
    (UnitInv s → 34 ≤ k.toNat → s.wp.toNat ≤ k.toNat)

/-- In every state that meets the invariant the bytes below WP each hold a value (R11): some byte
sequence of WP bytes is what the buffer holds, and no other is. -/
def Obligations.BufferHoldsExactlyTheWrittenBytes : Prop :=
  ∀ s : State, BufferInv s →
    (∃! bs : List Byte, Holds bs s) ∧ (∀ a b, readByte s.buf a = .ok b → a < s.wp.toNat)

/-- 41_record_buffer.md (R84, which the spec derives): the A family neither reads nor writes BUF or WP;
RCLR and RPUSH neither read nor write ACC, Z or OVF. -/
def Obligations.LoadingAndDecodingAreIndependent : Prop :=
  (∀ (i : Instr) (s : State) (m : Memory) (p : WpWord), (i = .aclr ∨ ∃ b, i = .apush b) →
    exec i { s with buf := m, wp := p } =
      mapNext (fun t => { t with buf := m, wp := p }) (exec i s)) ∧
  (∀ (i : Instr) (s : State) (a : AccWord) (z o : Bool), (i = .rclr ∨ ∃ b, i = .rpush b) →
    exec i { s with acc := a, z := z, ovf := o } =
      mapNext (fun t => { t with acc := a, z := z, ovf := o }) (exec i s)) ∧
  (∀ (i : Instr) (s t : State), (i = .aclr ∨ ∃ b, i = .apush b) → exec i s = .next t →
    t.buf = s.buf ∧ t.wp = s.wp) ∧
  (∀ (i : Instr) (s t : State), (i = .rclr ∨ ∃ b, i = .rpush b) → exec i s = .next t →
    t.acc = s.acc ∧ t.z = s.z ∧ t.ovf = s.ovf)

/-- 10_state.md section 3 (R12): RPUSH moves WP on below 34 and leaves it at 34, RCLR sets it to 0, no
other command changes it, and it never passes 34 (the spec marks that derived). -/
def Obligations.OnlyRpushAndRclrMoveTheWritePointer : Prop :=
  ∀ (i : Instr) (s t : State), exec i s = .next t →
    (i = .rclr → t.wp = 0#6) ∧
    ((∃ b, i = .rpush b) → s.wp.toNat < 34 → t.wp.toNat = s.wp.toNat + 1) ∧
    ((∃ b, i = .rpush b) → s.wp.toNat = 34 → t.wp = s.wp) ∧
    (i ≠ .rclr → (∀ b, i ≠ .rpush b) → t.wp = s.wp) ∧
    (s.wp.toNat ≤ 34 → t.wp.toNat ≤ 34)

/-- 20_memory.md section 1 (R32, which the spec derives): the byte RPUSH writes at an offset is the byte
RLDB returns for it; and RLDB 10 is bits 19 to 12 of what XRATE returns. -/
def Obligations.MixedWidthReadsSeeTheSameBytes : Prop :=
  (∀ (b k : Byte) (s : State), s.wp.toNat < 34 → k.toNat = s.wp.toNat →
    ∃ t, exec (.rpush b) s = .next t ∧ LeavesInAcc (.rldb k) t b.toNat) ∧
  (∀ (s : State) (r : Vector Byte 34), Holds r.toList s →
    ∃ v, LeavesInAcc .xrate s v ∧ LeavesInAcc (.rldb 10#8) s (v / 2 ^ 12))

/-- 20_memory.md section 3 (R36, which the spec derives from R30 and R31): a slice is the big-endian read
of the bytes it touches, shifted right by the unused low bits, modulo 2^n. -/
def Obligations.SlicesAreShiftedReads : Prop :=
  ∀ (bs : List Byte) (p n : Nat), 1 ≤ n → p + n ≤ 8 * bs.length →
    slice bs p n = some
      ((beValue ((bs.drop (p / 8)).take ((p + n - 1) / 8 - p / 8 + 1)) >>>
        (8 * ((p + n - 1) / 8 + 1) - (p + n))) % 2 ^ n)

/-! ### The header fields -/

/-- R91: HLAST. -/
def Obligations.HlastExtractsTheLastBlockFlag : Prop :=
  FieldRule .hlast 0x3000#16 4 3#4 (fun h => h[0].toNat >>> 7) 0 1 ∧
  (∀ b : Byte, b.toNat >>> 7 = (if b.getLsbD 7 then 1 else 0))

/-- R92: HTYPE. -/
def Obligations.HtypeExtractsTheBlockType : Prop :=
  FieldRule .htype 0x3100#16 4 3#4 (fun h => h[0].toNat &&& 0x7F) 1 7

/-- R93: HLEN. -/
def Obligations.HlenExtractsTheBlockLength : Prop :=
  FieldRule .hlen 0x3200#16 4 3#4
    (fun h => h[1].toNat * 65536 + h[2].toNat * 256 + h[3].toNat) 8 24 ∧
  (∀ h : Vector Byte 4, beValue [h[1], h[2], h[3]] =
    h[1].toNat * 65536 + h[2].toNat * 256 + h[3].toNat)

/-- 42_header_fields.md (R94, which the spec derives): the three results partition the header, each in
its range. -/
def Obligations.HeaderFieldsPartitionTheHeader : Prop :=
  ∀ (s : State) (h : Vector Byte 4), Holds h.toList s →
    ∃ last type length,
      LeavesInAcc .hlast s last ∧ LeavesInAcc .htype s type ∧ LeavesInAcc .hlen s length ∧
      last < 2 ∧ type < 128 ∧ length < 2 ^ 24 ∧
      beValue h.toList = last * 2 ^ 31 + type * 2 ^ 24 + length

/-- 30_encoding.md section 8 (R60): LOADHDR, from every state that is not frozen, then any H command,
leaves that field of the four bytes in ACC, with the header still held. -/
def Obligations.LoadedHeaderDecodes : Prop :=
  ∀ (h : Vector Byte 4) (s : State) (rest : List PortInput) (i : Instr) (v : Nat), s.err = false →
    (i, v) ∈ [(Instr.hlast, (unpackHeader h).isLast), (Instr.htype, (unpackHeader h).blockType),
      (Instr.hlen, (unpackHeader h).blockLength)] →
    s.inputs = presentAll ((Pseudo.loadHdr h.toList).expand ++ [i]) ++ rest →
    ∃ t, runSteps 6 s = .next t ∧ Holds h.toList t ∧ t.acc.toNat = v ∧ t.z = decide (v = 0) ∧
      t.ovf = false ∧ t.err = false ∧ t.inputs = rest

/-! ### The STREAMINFO unpacker -/

/-- R102: XMINBLK. -/
def Obligations.XminblkExtractsTheMinBlockSize : Prop :=
  FieldRule .xminblk 0x4000#16 34 4#4 (fun r => r[0].toNat * 256 + r[1].toNat) 0 16

/-- R103: XMAXBLK. -/
def Obligations.XmaxblkExtractsTheMaxBlockSize : Prop :=
  FieldRule .xmaxblk 0x4100#16 34 4#4 (fun r => r[2].toNat * 256 + r[3].toNat) 16 16

/-- R104: XMINFRM. -/
def Obligations.XminfrmExtractsTheMinFrameSize : Prop :=
  FieldRule .xminfrm 0x4200#16 34 4#4
    (fun r => r[4].toNat * 65536 + r[5].toNat * 256 + r[6].toNat) 32 24

/-- R105: XMAXFRM. -/
def Obligations.XmaxfrmExtractsTheMaxFrameSize : Prop :=
  FieldRule .xmaxfrm 0x4300#16 34 4#4
    (fun r => r[7].toNat * 65536 + r[8].toNat * 256 + r[9].toNat) 56 24

/-- R106: XRATE, the document's shift recipe, the sum form, and the slice. -/
def Obligations.XrateExtractsTheSampleRate : Prop :=
  FieldRule .xrate 0x4400#16 34 4#4 (fun r => beValue [r[10], r[11], r[12]] >>> 4) 80 20 ∧
  (∀ r : Vector Byte 34,
    beValue [r[10], r[11], r[12]] >>> 4 = beValue [r[10], r[11], r[12]] / 16 ∧
    beValue [r[10], r[11], r[12]] >>> 4 =
      r[10].toNat * 4096 + r[11].toNat * 16 + (r[12].toNat >>> 4))

/-- 43_streaminfo_fields.md section 3 (R107): XCHAN. The recipe is the spec's own inference from the bit
order, "[derived: from 20_memory.md rules R31, R36 and R38]" (log 7). -/
def Obligations.XchanExtractsChannelCountMinusOne : Prop :=
  FieldRule .xchan 0x4500#16 34 4#4 (fun r => r[12].toNat >>> 1 &&& 0x07) 100 3

/-- 43_streaminfo_fields.md section 3 (R108): XBPS. The recipe is the spec's own inference from the bit
order, "[derived: from 20_memory.md rules R31, R36 and R38]" (log 7). -/
def Obligations.XbpsExtractsBitsPerSampleMinusOne : Prop :=
  FieldRule .xbps 0x4600#16 34 4#4
    (fun r => (r[12].toNat &&& 0x01) <<< 4 ||| r[13].toNat >>> 4) 103 5 ∧
  (∀ r : Vector Byte 34, ((r[12].toNat &&& 0x01) <<< 4 ||| r[13].toNat >>> 4) =
    (beValue [r[12], r[13]] >>> 4) &&& 0x1F)

/-- R109: XTOTAL, the document's mask recipe, the sum form, and the slice. -/
def Obligations.XtotalExtractsTheTotalSamples : Prop :=
  FieldRule .xtotal 0x4700#16 34 4#4
    (fun r => beValue [r[13] &&& 0x0F#8, r[14], r[15], r[16], r[17]]) 108 36 ∧
  (∀ r : Vector Byte 34,
    beValue [r[13] &&& 0x0F#8, r[14], r[15], r[16], r[17]] =
      beValue [r[13], r[14], r[15], r[16], r[17]] % 2 ^ 36 ∧
    beValue [r[13] &&& 0x0F#8, r[14], r[15], r[16], r[17]] =
      (r[13].toNat &&& 0x0F) * 2 ^ 32 + r[14].toNat * 2 ^ 24 + r[15].toNat * 2 ^ 16 +
        r[16].toNat * 2 ^ 8 + r[17].toNat)

/-- 43_streaminfo_fields.md section 4 (R110): byte k of the audio MD5 is what `RLDB 18+k` leaves, k from
0 to 15. -/
def Obligations.Md5IsReadByteByByte : Prop :=
  ∀ (s : State) (r : Vector Byte 34) (k : Fin 16), Holds r.toList s →
    (Pseudo.rmd5 k.val).expand = [.rldb (BitVec.ofNat 8 (18 + k.val))] ∧
    LeavesInAcc (.rldb (BitVec.ofNat 8 (18 + k.val))) s (r[18 + k.val]'(by omega)).toNat

/-- 43_streaminfo_fields.md section 5 (R111, which the spec derives): the nine fields, each the value its
command leaves in ACC, partition the record; and the eight bytes 10 to 17 by themselves. -/
def Obligations.RecordFieldsPartitionTheRecord : Prop :=
  ∀ (s : State) (r : Vector Byte 34), Holds r.toList s →
    ∃ minb maxb minf maxf rate chan bps total,
      LeavesInAcc .xminblk s minb ∧ LeavesInAcc .xmaxblk s maxb ∧ LeavesInAcc .xminfrm s minf ∧
      LeavesInAcc .xmaxfrm s maxf ∧ LeavesInAcc .xrate s rate ∧ LeavesInAcc .xchan s chan ∧
      LeavesInAcc .xbps s bps ∧ LeavesInAcc .xtotal s total ∧
      minb < 2 ^ 16 ∧ maxb < 2 ^ 16 ∧ minf < 2 ^ 24 ∧ maxf < 2 ^ 24 ∧ rate < 2 ^ 20 ∧
      chan < 2 ^ 3 ∧ bps < 2 ^ 5 ∧ total < 2 ^ 36 ∧
      beValue r.toList =
        minb * 2 ^ 256 + maxb * 2 ^ 240 + minf * 2 ^ 216 + maxf * 2 ^ 192 + rate * 2 ^ 172 +
          chan * 2 ^ 169 + bps * 2 ^ 164 + total * 2 ^ 128 + beValue (r.toList.drop 18) ∧
      beValue ((r.toList.drop 10).take 8) =
        rate * 2 ^ 44 + chan * 2 ^ 41 + bps * 2 ^ 36 + total

/-- 43_streaminfo_fields.md section 5 (R111, which the spec derives): for every choice of nine in-range
field values there is exactly one record that unpacks to them. -/
def Obligations.UnpackerIsABijection : Prop :=
  ∀ f : StreamInfo, f.minBlock < 2 ^ 16 → f.maxBlock < 2 ^ 16 → f.minFrame < 2 ^ 24 →
    f.maxFrame < 2 ^ 24 → f.sampleRate < 2 ^ 20 → f.channelsMinus1 < 2 ^ 3 →
    f.bitsPerSampleMinus1 < 2 ^ 5 → f.totalSamples < 2 ^ 36 →
    ∃! r : Vector Byte 34, unpack r = f

/-- 43_streaminfo_fields.md section 5 (R113, which the spec derives): LOADREC, from every state that is
not frozen, then any X command, leaves that field of the pure unpacker in ACC, with the record still
held; the same for the MD5 bytes by RLDB. -/
def Obligations.LoadedRecordUnpacks : Prop :=
  ∀ (r : Vector Byte 34) (s : State) (rest : List PortInput) (i : Instr) (v : Nat), s.err = false →
    ((i, v) ∈ [(Instr.xminblk, (unpack r).minBlock), (Instr.xmaxblk, (unpack r).maxBlock),
        (Instr.xminfrm, (unpack r).minFrame), (Instr.xmaxfrm, (unpack r).maxFrame),
        (Instr.xrate, (unpack r).sampleRate), (Instr.xchan, (unpack r).channelsMinus1),
        (Instr.xbps, (unpack r).bitsPerSampleMinus1), (Instr.xtotal, (unpack r).totalSamples)] ∨
      ∃ k : Fin 16, i = .rldb (BitVec.ofNat 8 (18 + k.val)) ∧ v = (unpack r).md5[k].toNat) →
    s.inputs = presentAll ((Pseudo.loadRec r.toList).expand ++ [i]) ++ rest →
    ∃ t, runSteps 36 s = .next t ∧ Holds r.toList t ∧ t.acc.toNat = v ∧ t.z = decide (v = 0) ∧
      t.ovf = false ∧ t.err = false ∧ t.inputs = rest

/-! ### Flags, frames and repeated reads -/

/-- R16: a command other than APUSH that writes ACC writes OVF = 0 and Z of the value in the same step;
a command that does not write ACC, or faults, leaves ACC, Z and OVF. -/
def Obligations.WritesOfAccWriteTheFlags : Prop :=
  ∀ (i : Instr) (s t : State), (∀ b, i ≠ .apush b) → exec i s = .next t →
    (t.acc = s.acc ∧ t.z = s.z ∧ t.ovf = s.ovf ∧
      (i = .rclr ∨ (∃ b, i = .rpush b) ∨ TableFault i s.wp.toNat ≠ none)) ∨
    (∃ v, v < 2 ^ 64 ∧ t.acc.toNat = v ∧ t.ovf = false ∧ t.z = decide (v = 0) ∧
      (i = .aclr ∨ Reads i = true) ∧ TableFault i s.wp.toNat = none)

/-- The frame of the commands that store nothing in the buffer (10_state.md sections 2 to 6): WP, every
byte of the buffer and the coming inputs are unchanged; and either the command faulted, with only ERR,
ERRC and ERRW written, ERRC with the code of the fault table, or only ACC, Z and OVF were. -/
def Obligations.FrameOfTheCommandsThatStoreNothing : Prop :=
  ∀ (i : Instr) (s t : State), i ≠ .rclr → (∀ b, i ≠ .rpush b) → exec i s = .next t →
    t.wp = s.wp ∧ t.inputs = s.inputs ∧ (∀ a, readByte t.buf a = readByte s.buf a) ∧
    ((t.acc = s.acc ∧ t.z = s.z ∧ t.ovf = s.ovf ∧ t.err = true ∧
        TableFault i s.wp.toNat = some t.errc ∧ t.errw = encode i) ∨
      (TableFault i s.wp.toNat = none ∧ t.err = s.err ∧ t.errc = s.errc ∧ t.errw = s.errw))

/-- The frame of RCLR and RPUSH (41_record_buffer.md): ACC, Z, OVF and the coming inputs are unchanged;
RCLR leaves the fault registers; RPUSH leaves every byte of the buffer but the one at WP; where it faults
(`BufFull`, code 2, at WP = 34) it leaves all of them and WP, and where it stores the fault registers. -/
def Obligations.FrameOfTheBufferCommands : Prop :=
  (∀ s t : State, exec .rclr s = .next t →
    t.acc = s.acc ∧ t.z = s.z ∧ t.ovf = s.ovf ∧ t.inputs = s.inputs ∧ t.err = s.err ∧
      t.errc = s.errc ∧ t.errw = s.errw) ∧
  (∀ (b : Byte) (s t : State), exec (.rpush b) s = .next t →
    t.acc = s.acc ∧ t.z = s.z ∧ t.ovf = s.ovf ∧ t.inputs = s.inputs ∧
    (∀ a, a ≠ s.wp.toNat → readByte t.buf a = readByte s.buf a) ∧
    ((s.wp.toNat = 34 ∧ t.wp = s.wp ∧ t.err = true ∧ t.errc = 2#4 ∧ t.errw = encode (.rpush b) ∧
        ∀ a, readByte t.buf a = readByte s.buf a) ∨
      (s.wp.toNat ≠ 34 ∧ t.err = s.err ∧ t.errc = s.errc ∧ t.errw = s.errw)))

/-- 20_memory.md section 2 (R35) and 43_streaminfo_fields.md section 1 (R101): reads are idempotent and
may be issued in any order: after a reading command that did not fault, any reading command that would
not have faulted before gives exactly the state it would have given before. -/
def Obligations.LaterReadsSeeTheSameRecord : Prop :=
  ∀ (i j : Instr) (s t u : State), Reads i = true → Reads j = true → s.err = false →
    exec i s = .next t → t.err = false → exec j s = .next u → u.err = false →
    exec j t = .next u

/-! ### Faults -/

/-- R121: each command faults exactly on its condition, with its code and its word, and otherwise
completes with the fault registers untouched; a word that is no command faults with code 1. The premise
is the buffer's invariant, stated of every step by `StepKeepsTheInvariant`. -/
def Obligations.FaultTableIsExact : Prop :=
  (∀ (i : Instr) (s : State), BufferInv s →
    match TableFault i s.wp.toNat with
    | some c => exec i s = .next { s with err := true, errc := c, errw := encode i }
    | none => ∃ t, exec i s = .next t ∧ t.err = s.err ∧ t.errc = s.errc ∧ t.errw = s.errw) ∧
  (∀ (w : CmdWord) (s : State), s.err = false → legalWord w = false →
    acceptCommand w s = .next { s with err := true, errc := 1#4, errw := w })

/-- R123: the step in which ERR rises writes ERR, ERRC with the fault's code and ERRW with the presented
word, and nothing else. -/
def Obligations.FaultEntryWritesOnlyTheFaultRegisters : Prop :=
  ∀ s t : State, s.err = false → step s = .next t → t.err = true →
    ∃ p rest, s.inputs = p :: rest ∧ p.rst = false ∧ p.cmdValid = true ∧
      t = { s with inputs := rest, err := true, errc := t.errc, errw := p.cmd } ∧
      (∀ e, decode p.cmd = .error e → t.errc = 1#4) ∧
      (∀ i, decode p.cmd = .ok i → TableFault i s.wp.toNat = some t.errc)

/-- 60_exceptions.md section 2 (R122) and 95_test_vectors.md E4, E5: the decode check comes before the
command's own precondition: a format N opcode, each of the 13, with a non-zero `imm` is `IllegalCmd` at
every WP. -/
def Obligations.DecodeCheckComesBeforeThePrecondition : Prop :=
  ∀ (s : State) (op imm : Byte) (rest : List PortInput), s.err = false →
    op ∈ [0x10#8, 0x20#8, 0x30#8, 0x31#8, 0x32#8, 0x40#8, 0x41#8, 0x42#8, 0x43#8, 0x44#8, 0x45#8, 0x46#8,
      0x47#8] →
    imm ≠ 0#8 → s.inputs = presentWord (op ++ imm) :: rest →
    step s = .next { s with inputs := rest, err := true, errc := 1#4, errw := op ++ imm }

/-! ### Invariants of the machine -/

/-- The invariant holds at reset, whatever the host is going to present. -/
def Obligations.ResetMeetsTheInvariant : Prop :=
  ∀ inputs : List PortInput, UnitInv { State.reset with inputs := inputs }

/-- Every step keeps the invariant, from every state that meets it: WP at most 34, the buffer in
canonical form with exactly the bytes below WP held, Z the zero test of ACC, the fault registers legal. -/
def Obligations.StepKeepsTheInvariant : Prop :=
  ∀ s t : State, UnitInv s → step s = .next t → UnitInv t

/-- 30_encoding.md section 2 and 70_reset_and_hazards.md section 3 ("every command sequence has a defined
outcome"): from every state that meets the invariant, every run of steps goes on; the model neither
faults nor refuses. -/
def Obligations.EveryRunGoesOn : Prop :=
  ∀ (n : Nat) (s : State), UnitInv s → ∃ t, runSteps n s = .next t ∧ UnitInv t

/-- No step ever refuses, in any state: every command has its meaning. -/
def Obligations.NoStepRefuses : Prop :=
  ∀ (s : State) (r : Refusal), step s ≠ .refused r

/-- Every operation of the machine keeps the canonical form of the buffer, from every state that has it. -/
def Obligations.StepKeepsTheCanonicalBuffer : Prop :=
  ∀ s t : State, s.buf.wf → step s = .next t → t.buf.wf

/-- 10_state.md section 10 (R23, which the spec derives): (a) to (f), in every state a run from reset
reaches, whatever the host presents. -/
def Obligations.ReachableStatesMeetTheListedFacts : Prop :=
  ∀ s : State, Reachable s →
    s.wp.toNat ≤ 34 ∧ s.z = decide (s.acc = 0#64) ∧
    (s.err = false → s.errc = 0#4 ∧ s.errw = 0#16) ∧
    (s.err = true → 1 ≤ s.errc.toNat ∧ s.errc.toNat ≤ 5) ∧
    s.acc.toNat < 2 ^ 64 ∧
    (statusPort s).getLsbD 3 = false ∧ (statusPort s).extractLsb' 14 2 = 0#2
end

