-- ==== Sys2Proof/Machine/Assembler.lean ====
section
/-! DEFINITION. The assembler syntax of this command set (spec/30_encoding.md R59, R60): one line of text,
as its characters, to the commands it stands for; and a command as its line of text. -/

namespace Sys2Proof.Machine

/-- The lines without an operand, by mnemonic (R54, format N). -/
def plainMnemonics : List (List Char × Instr) :=
  [ (['A', 'C', 'L', 'R'], .aclr),
    (['R', 'C', 'L', 'R'], .rclr),
    (['H', 'L', 'A', 'S', 'T'], .hlast),
    (['H', 'T', 'Y', 'P', 'E'], .htype),
    (['H', 'L', 'E', 'N'], .hlen),
    (['X', 'M', 'I', 'N', 'B', 'L', 'K'], .xminblk),
    (['X', 'M', 'A', 'X', 'B', 'L', 'K'], .xmaxblk),
    (['X', 'M', 'I', 'N', 'F', 'R', 'M'], .xminfrm),
    (['X', 'M', 'A', 'X', 'F', 'R', 'M'], .xmaxfrm),
    (['X', 'R', 'A', 'T', 'E'], .xrate),
    (['X', 'C', 'H', 'A', 'N'], .xchan),
    (['X', 'B', 'P', 'S'], .xbps),
    (['X', 'T', 'O', 'T', 'A', 'L'], .xtotal) ]

/-- The commands with one byte operand, by mnemonic (R54, format I). -/
def byteMnemonics : List (List Char × (Byte → Instr)) :=
  [ (['A', 'P', 'U', 'S', 'H'], .apush),
    (['R', 'P', 'U', 'S', 'H'], .rpush),
    (['R', 'L', 'D', 'B'], .rldb) ]

/-- The pseudo-instructions with a list of bytes, by name (R60). -/
def pseudoMnemonics : List (List Char × (List Byte → Pseudo)) :=
  [ (['D', 'E', 'C', 'O', 'D', 'E'], .decode),
    (['L', 'O', 'A', 'D', 'H', 'D', 'R'], .loadHdr),
    (['L', 'O', 'A', 'D', 'R', 'E', 'C'], .loadRec) ]

/-- The value of a digit character in a base of at most 16. -/
def digitValue (base : Nat) (c : Char) : Option Nat :=
  let n := c.toNat
  let d := if 48 ≤ n ∧ n ≤ 57 then n - 48
    else if 65 ≤ n ∧ n ≤ 70 then n - 55
    else if 97 ≤ n ∧ n ≤ 102 then n - 87
    else 16
  if d < base then some d else none

/-- A number's digits, most significant first, after the digits read so far. -/
def digitsValue (base acc : Nat) : List Char → Option Nat
  | [] => some acc
  | c :: cs =>
    match digitValue base c with
    | some d => digitsValue base (acc * base + d) cs
    | none => none

/-- "a byte written in decimal or as `0x` and two hexadecimal digits" (R59); none outside 0 to 255. -/
def byteOperand : List Char → Option Byte
  | [] => none
  | ['0', 'x', h, l] => (digitsValue 16 0 [h, l]).map (BitVec.ofNat 8)
  | cs =>
    match digitsValue 10 0 cs with
    | some v => if v ≤ 255 then some (BitVec.ofNat 8 v) else none
    | none => none

/-- A word ends: it is a token unless it is empty. -/
def endWord (cur : List Char) (rest : List (List Char)) : List (List Char) :=
  if cur = [] then rest else cur :: rest

/-- A line's words, and its commas as words of their own; `cur` is the word read so far. A `#` starts a
comment (R59). Words are set apart by spaces and tabs (DESIGN CHOICE, log 11). -/
def lineWords (cur : List Char) : List Char → List (List Char)
  | [] => endWord cur []
  | c :: cs =>
    if c = '#' then endWord cur []
    else if c = ' ' ∨ c = '\t' then endWord cur (lineWords [] cs)
    else if c = ',' then endWord cur ([','] :: lineWords [] cs)
    else lineWords (cur ++ [c]) cs

/-- Operands after the first, each after a comma (R60). -/
def moreOperands : List (List Char) → Option (List Byte)
  | [] => some []
  | [_] => none
  | sep :: w :: ws =>
    if sep = [','] then
      match byteOperand w, moreOperands ws with
      | some b, some bs => some (b :: bs)
      | _, _ => none
    else none

/-- A list of operands with commas between them; none at all is the empty list (R60: n at least 0). -/
def operandList : List (List Char) → Option (List Byte)
  | [] => some []
  | w :: ws =>
    match byteOperand w, moreOperands ws with
    | some b, some bs => some (b :: bs)
    | _, _ => none

/-- A pseudo-instruction's commands, where its operands are allowed (R60). -/
def expandPseudo (p : Pseudo) : Option (List Instr) :=
  if p.wf then some p.expand else none

/-- One line: none of its words, no command; else a mnemonic and its operands (R59, R60). -/
def assembleWords : List (List Char) → Option (List Instr)
  | [] => some []
  | m :: ops =>
    match plainMnemonics.lookup m, byteMnemonics.lookup m, pseudoMnemonics.lookup m, operandList ops with
    | some i, _, _, some [] => some [i]
    | none, some f, _, some [b] => some [f b]
    | none, none, some p, some bs => expandPseudo (p bs)
    | none, none, none, some [b] =>
      if m = ['R', 'M', 'D', '5'] then expandPseudo (.rmd5 b.toNat) else none
    | _, _, _, _ => none

/-- The commands a line of text stands for; none where the line is no line of R59 or R60. -/
def assembleLine (cs : List Char) : Option (List Instr) := assembleWords (lineWords [] cs)

/-- A program: its lines' commands in order, none where some line is none (R59: one command per line). -/
def assemble : List (List Char) → Option (List Instr)
  | [] => some []
  | l :: ls =>
    match assembleLine l, assemble ls with
    | some is, some js => some (is ++ js)
    | _, _ => none

/-- A hexadecimal digit, in capitals. -/
def hexDigit (n : Nat) : Char :=
  ['0', '1', '2', '3', '4', '5', '6', '7', '8', '9', 'A', 'B', 'C', 'D', 'E', 'F'].getD n '0'

/-- A mnemonic and a byte operand in hexadecimal. -/
def byteLine (m : List Char) (b : Byte) : List Char :=
  m ++ [' ', '0', 'x', hexDigit (b.toNat / 16), hexDigit (b.toNat % 16)]

/-- A command's line of text (R59), its operand in hexadecimal. -/
def asmLine : Instr → List Char
  | .aclr => ['A', 'C', 'L', 'R']
  | .apush b => byteLine ['A', 'P', 'U', 'S', 'H'] b
  | .rclr => ['R', 'C', 'L', 'R']
  | .rpush b => byteLine ['R', 'P', 'U', 'S', 'H'] b
  | .rldb b => byteLine ['R', 'L', 'D', 'B'] b
  | .hlast => ['H', 'L', 'A', 'S', 'T']
  | .htype => ['H', 'T', 'Y', 'P', 'E']
  | .hlen => ['H', 'L', 'E', 'N']
  | .xminblk => ['X', 'M', 'I', 'N', 'B', 'L', 'K']
  | .xmaxblk => ['X', 'M', 'A', 'X', 'B', 'L', 'K']
  | .xminfrm => ['X', 'M', 'I', 'N', 'F', 'R', 'M']
  | .xmaxfrm => ['X', 'M', 'A', 'X', 'F', 'R', 'M']
  | .xrate => ['X', 'R', 'A', 'T', 'E']
  | .xchan => ['X', 'C', 'H', 'A', 'N']
  | .xbps => ['X', 'B', 'P', 'S']
  | .xtotal => ['X', 'T', 'O', 'T', 'A', 'L']

end Sys2Proof.Machine
end

