-- ==== Sys2Proof/Laws/Assembler.lean ====
section
/-! SUPPORT. The assembler reads back the line it writes (spec/30_encoding.md R59). -/

namespace Sys2Proof.Machine

theorem assembleLine_apush (b : Byte) : assembleLine (asmLine (.apush b)) = some [.apush b] := by
  revert b; decide

theorem assembleLine_rpush (b : Byte) : assembleLine (asmLine (.rpush b)) = some [.rpush b] := by
  revert b; decide

theorem assembleLine_rldb (b : Byte) : assembleLine (asmLine (.rldb b)) = some [.rldb b] := by
  revert b; decide

/-- Writing a command as a line and reading it gives the command. -/
theorem assembleLine_asmLine (i : Instr) : assembleLine (asmLine i) = some [i] := by
  cases i with
  | apush b => exact assembleLine_apush b
  | rpush b => exact assembleLine_rpush b
  | rldb b => exact assembleLine_rldb b
  | _ => decide

/-- The mnemonics the assembler reads are those of the opcode map. -/
theorem plainMnemonics_spelling : ∀ p ∈ plainMnemonics, String.ofList p.1 = p.2.mnemonic := by decide

theorem byteMnemonics_spelling :
    ∀ p ∈ byteMnemonics, String.ofList p.1 = (p.2 0#8).mnemonic := by decide

end Sys2Proof.Machine
end

