-- ==== Sys2Proof/Laws/Decode.lean ====
section
/-! SUPPORT. The two fields of a command word: the word is made of them, and nothing is lost either way.
Proofs about the decoder and the encoder cite these and never look at bits. -/

namespace Sys2Proof

theorem mkWord_toNat (op imm : Byte) : (mkWord op imm).toNat = op.toNat * 256 + imm.toNat := by
  have h := imm.isLt
  simp only [mkWord, BitVec.toNat_append, Nat.shiftLeft_eq]
  rw [← Nat.shiftLeft_eq, ← Nat.shiftLeft_add_eq_or_of_lt h, Nat.shiftLeft_eq]

theorem opField_toNat (w : CmdWord) : (opField w).toNat = w.toNat / 256 := by
  have h := w.isLt
  simp only [opField, BitVec.extractLsb'_toNat, Nat.shiftRight_eq_div_pow]
  omega

theorem immField_toNat (w : CmdWord) : (immField w).toNat = w.toNat % 256 := by
  simp only [immField, BitVec.extractLsb'_toNat, Nat.shiftRight_eq_div_pow]
  omega

/-- `op` of a word made of two fields is the first (R50). -/
@[simp] theorem opField_mkWord (op imm : Byte) : opField (mkWord op imm) = op := by
  have h := imm.isLt
  apply BitVec.eq_of_toNat_eq
  rw [opField_toNat, mkWord_toNat]; omega

/-- `imm` of a word made of two fields is the second (R50). -/
@[simp] theorem immField_mkWord (op imm : Byte) : immField (mkWord op imm) = imm := by
  have h := imm.isLt
  apply BitVec.eq_of_toNat_eq
  rw [immField_toNat, mkWord_toNat]; omega

/-- A word is made of its two fields (R50). -/
@[simp] theorem mkWord_fields (w : CmdWord) : mkWord (opField w) (immField w) = w := by
  apply BitVec.eq_of_toNat_eq
  rw [mkWord_toNat, opField_toNat, immField_toNat]; omega

/-- Everything a format N word can give: its command for `imm` = 0, a rejection by name otherwise. -/
theorem formatN_eq_ok {op imm : Byte} {i j : Instr} :
    formatN op imm i = .ok j ↔ imm = 0#8 ∧ i = j := by
  unfold formatN
  split_ifs with h <;> simp [h]

end Sys2Proof
end

