-- ==== Sys2Proof/Laws/State.lean ====
section
/-! SUPPORT. One lemma per field per update of State, each true by unfolding the update once. -/

namespace Sys2Proof

/-! The lengths, as the numbers they are (spec/00_scope.md R4). -/

@[simp] theorem Config.hdrLen_eq : Config.hdrLen = 4 := rfl
@[simp] theorem Config.recLen_eq : Config.recLen = 34 := rfl
@[simp] theorem Config.bufLen_eq : Config.bufLen = 34 := rfl

end Sys2Proof

namespace Sys2Proof.Machine

@[simp] theorem writeAcc_acc (v : Nat) (s : State) : (writeAcc v s).acc = BitVec.ofNat 64 v := rfl
@[simp] theorem writeAcc_z (v : Nat) (s : State) : (writeAcc v s).z = zeroFlag v := rfl
@[simp] theorem writeAcc_ovf (v : Nat) (s : State) : (writeAcc v s).ovf = false := rfl
@[simp] theorem writeAcc_buf (v : Nat) (s : State) : (writeAcc v s).buf = s.buf := rfl
@[simp] theorem writeAcc_wp (v : Nat) (s : State) : (writeAcc v s).wp = s.wp := rfl
@[simp] theorem writeAcc_err (v : Nat) (s : State) : (writeAcc v s).err = s.err := rfl
@[simp] theorem writeAcc_errc (v : Nat) (s : State) : (writeAcc v s).errc = s.errc := rfl
@[simp] theorem writeAcc_errw (v : Nat) (s : State) : (writeAcc v s).errw = s.errw := rfl
@[simp] theorem writeAcc_inputs (v : Nat) (s : State) : (writeAcc v s).inputs = s.inputs := rfl

@[simp] theorem appendAcc_acc (b : Byte) (s : State) : (appendAcc b s).acc = pushByte s.acc b := rfl
@[simp] theorem appendAcc_z (b : Byte) (s : State) : (appendAcc b s).z = zeroFlag (pushByte s.acc b).toNat := rfl
@[simp] theorem appendAcc_ovf (b : Byte) (s : State) : (appendAcc b s).ovf = (s.ovf || pushSpill s.acc) := rfl
@[simp] theorem appendAcc_buf (b : Byte) (s : State) : (appendAcc b s).buf = s.buf := rfl
@[simp] theorem appendAcc_wp (b : Byte) (s : State) : (appendAcc b s).wp = s.wp := rfl
@[simp] theorem appendAcc_err (b : Byte) (s : State) : (appendAcc b s).err = s.err := rfl
@[simp] theorem appendAcc_errc (b : Byte) (s : State) : (appendAcc b s).errc = s.errc := rfl
@[simp] theorem appendAcc_errw (b : Byte) (s : State) : (appendAcc b s).errw = s.errw := rfl
@[simp] theorem appendAcc_inputs (b : Byte) (s : State) : (appendAcc b s).inputs = s.inputs := rfl

@[simp] theorem clearBuffer_acc (s : State) : (clearBuffer s).acc = s.acc := rfl
@[simp] theorem clearBuffer_z (s : State) : (clearBuffer s).z = s.z := rfl
@[simp] theorem clearBuffer_ovf (s : State) : (clearBuffer s).ovf = s.ovf := rfl
@[simp] theorem clearBuffer_buf (s : State) : (clearBuffer s).buf = [] := rfl
@[simp] theorem clearBuffer_wp (s : State) : (clearBuffer s).wp = 0#6 := rfl
@[simp] theorem clearBuffer_err (s : State) : (clearBuffer s).err = s.err := rfl
@[simp] theorem clearBuffer_errc (s : State) : (clearBuffer s).errc = s.errc := rfl
@[simp] theorem clearBuffer_errw (s : State) : (clearBuffer s).errw = s.errw := rfl
@[simp] theorem clearBuffer_inputs (s : State) : (clearBuffer s).inputs = s.inputs := rfl

@[simp] theorem raiseFault_acc (f : FaultCode) (w : CmdWord) (s : State) : (raiseFault f w s).acc = s.acc := rfl
@[simp] theorem raiseFault_z (f : FaultCode) (w : CmdWord) (s : State) : (raiseFault f w s).z = s.z := rfl
@[simp] theorem raiseFault_ovf (f : FaultCode) (w : CmdWord) (s : State) : (raiseFault f w s).ovf = s.ovf := rfl
@[simp] theorem raiseFault_buf (f : FaultCode) (w : CmdWord) (s : State) : (raiseFault f w s).buf = s.buf := rfl
@[simp] theorem raiseFault_wp (f : FaultCode) (w : CmdWord) (s : State) : (raiseFault f w s).wp = s.wp := rfl
@[simp] theorem raiseFault_err (f : FaultCode) (w : CmdWord) (s : State) : (raiseFault f w s).err = true := rfl
@[simp] theorem raiseFault_errc (f : FaultCode) (w : CmdWord) (s : State) : (raiseFault f w s).errc = faultNumber f := rfl
@[simp] theorem raiseFault_errw (f : FaultCode) (w : CmdWord) (s : State) : (raiseFault f w s).errw = w := rfl
@[simp] theorem raiseFault_inputs (f : FaultCode) (w : CmdWord) (s : State) : (raiseFault f w s).inputs = s.inputs := rfl

@[simp] theorem resetUnit_acc (s : State) : (resetUnit s).acc = 0#64 := rfl
@[simp] theorem resetUnit_z (s : State) : (resetUnit s).z = true := rfl
@[simp] theorem resetUnit_ovf (s : State) : (resetUnit s).ovf = false := rfl
@[simp] theorem resetUnit_buf (s : State) : (resetUnit s).buf = [] := rfl
@[simp] theorem resetUnit_wp (s : State) : (resetUnit s).wp = 0#6 := rfl
@[simp] theorem resetUnit_err (s : State) : (resetUnit s).err = false := rfl
@[simp] theorem resetUnit_errc (s : State) : (resetUnit s).errc = 0#4 := rfl
@[simp] theorem resetUnit_errw (s : State) : (resetUnit s).errw = 0#16 := rfl
@[simp] theorem resetUnit_inputs (s : State) : (resetUnit s).inputs = s.inputs := rfl

@[simp] theorem presentNext_acc (w : CmdWord) (s : State) : (presentNext w s).acc = s.acc := rfl
@[simp] theorem presentNext_z (w : CmdWord) (s : State) : (presentNext w s).z = s.z := rfl
@[simp] theorem presentNext_ovf (w : CmdWord) (s : State) : (presentNext w s).ovf = s.ovf := rfl
@[simp] theorem presentNext_buf (w : CmdWord) (s : State) : (presentNext w s).buf = s.buf := rfl
@[simp] theorem presentNext_wp (w : CmdWord) (s : State) : (presentNext w s).wp = s.wp := rfl
@[simp] theorem presentNext_err (w : CmdWord) (s : State) : (presentNext w s).err = s.err := rfl
@[simp] theorem presentNext_errc (w : CmdWord) (s : State) : (presentNext w s).errc = s.errc := rfl
@[simp] theorem presentNext_errw (w : CmdWord) (s : State) : (presentNext w s).errw = s.errw := rfl
@[simp] theorem presentNext_inputs (w : CmdWord) (s : State) : (presentNext w s).inputs = presentWord w :: s.inputs := rfl

@[simp] theorem presentWord_rst (w : CmdWord) : (presentWord w).rst = false := rfl
@[simp] theorem presentWord_cmdValid (w : CmdWord) : (presentWord w).cmdValid = true := rfl
@[simp] theorem presentWord_cmd (w : CmdWord) : (presentWord w).cmd = w := rfl
@[simp] theorem presentReset_rst : presentReset.rst = true := rfl
@[simp] theorem presentIdle_rst : presentIdle.rst = false := rfl
@[simp] theorem presentIdle_cmdValid : presentIdle.cmdValid = false := rfl

end Sys2Proof.Machine
end

