-- ==== Sys2Proof/Laws/Memory.lean ====
section
/-! SUPPORT. The record buffer as a list of cells: a read after a write, and that every operation keeps
the canonical form. -/

namespace Sys2Proof.Machine

theorem lookupCell_insertCell_self (m : Memory) (a : Nat) (b : Byte) :
    lookupCell (insertCell m a b) a = some b := by
  induction m with
  | nil => simp [insertCell, lookupCell]
  | cons c m ih =>
    obtain ⟨k, v⟩ := c
    unfold insertCell
    split_ifs with h1 h2 <;> simp [lookupCell]
    rw [if_neg (by omega), ih]

theorem lookupCell_insertCell_other (m : Memory) {a a' : Nat} (b : Byte) (h : a' ≠ a) :
    lookupCell (insertCell m a b) a' = lookupCell m a' := by
  induction m with
  | nil => simp [insertCell, lookupCell, h.symm]
  | cons c m ih =>
    obtain ⟨k, v⟩ := c
    unfold insertCell
    split_ifs with h1 h2
    · simp [lookupCell, h.symm]
    · subst h2; simp [lookupCell, h.symm]
    · simp [lookupCell, ih]

theorem mem_insertCell {m : Memory} {a : Nat} {b : Byte} {c : Host.Cell}
    (h : c ∈ insertCell m a b) : c = (a, b) ∨ c ∈ m := by
  induction m with
  | nil => simpa [insertCell] using h
  | cons d m ih =>
    obtain ⟨k, v⟩ := d
    unfold insertCell at h
    split_ifs at h with h1 h2
    · simpa using h
    · rcases List.mem_cons.1 h with h | h
      · exact .inl h
      · exact .inr (List.mem_cons_of_mem _ h)
    · rcases List.mem_cons.1 h with h | h
      · exact .inr (h ▸ List.mem_cons_self)
      · exact (ih h).imp_right (List.mem_cons_of_mem _)

/-- Writing a byte of the unit's buffer keeps the canonical form. -/
theorem insertCell_wf {m : Memory} {a : Nat} (b : Byte) (hm : m.wf) (ha : a < Config.bufLen) :
    Memory.wf (insertCell m a b) := by
  refine ⟨?_, fun c hc => ?_⟩
  · have hp := hm.1
    clear hm ha
    induction m with
    | nil => simp [insertCell]
    | cons d m ih =>
      obtain ⟨k, v⟩ := d
      rw [List.map_cons, List.pairwise_cons] at hp
      unfold insertCell
      split_ifs with h1 h2
      · simp only [List.map_cons, List.pairwise_cons]
        refine ⟨fun x hx => ?_, hp⟩
        rcases List.mem_cons.1 hx with rfl | hx
        · exact h1
        · exact h1.trans (hp.1 x hx)
      · subst h2
        exact List.pairwise_cons.2 hp
      · rw [List.map_cons, List.pairwise_cons]
        refine ⟨fun x hx => ?_, ih hp.2⟩
        obtain ⟨c, hc, rfl⟩ := List.mem_map.1 hx
        rcases mem_insertCell hc with rfl | hc
        · show k < a; omega
        · exact hp.1 _ (List.mem_map_of_mem hc)
  · rcases mem_insertCell hc with rfl | hc
    · exact ha
    · exact hm.2 c hc

/-- `writeByte` answers a buffer in canonical form, given one. -/
theorem writeByte_wf {m m' : Memory} {a : Nat} {b : Byte} (hm : m.wf) (h : writeByte m a b = .ok m') :
    Memory.wf m' := by
  unfold writeByte at h
  split_ifs at h with ha
  cases h
  exact insertCell_wf b hm ha

/-- The emptied buffer is in canonical form. -/
theorem clearBuffer_wf (s : State) : Memory.wf (clearBuffer s).buf := by simp [Memory.wf]

/-- The buffer at reset is in canonical form. -/
theorem reset_wf : Memory.wf State.reset.buf := by simp [Memory.wf, State.reset]

theorem writeByte_ok {m : Memory} {a : Nat} (b : Byte) (h : a < Config.bufLen) :
    writeByte m a b = .ok (insertCell m a b) := if_pos h

/-- A read of the byte just written gives it. -/
theorem readByte_writeByte_self {m m' : Memory} {a : Nat} {b : Byte} (h : writeByte m a b = .ok m') :
    readByte m' a = .ok b := by
  unfold writeByte at h
  split_ifs at h with ha
  cases h
  simp [readByte, ha, lookupCell_insertCell_self]

/-- A write leaves every other byte alone. -/
theorem readByte_writeByte_other {m m' : Memory} {a a' : Nat} {b : Byte}
    (h : writeByte m a b = .ok m') (hne : a' ≠ a) : readByte m' a' = readByte m a' := by
  unfold writeByte at h
  split_ifs at h with ha
  cases h
  simp [readByte, lookupCell_insertCell_other m b hne]

/-- Every byte of an empty buffer holds no value. -/
theorem readByte_nil_ne_ok (a : Nat) (b : Byte) : readByte [] a ≠ .ok b := by
  unfold readByte lookupCell
  split_ifs <;> simp

/-- Everything `readBytes` can answer without stopping: the bytes that read one by one. -/
theorem readBytes_eq_ok {m : Memory} {a n : Nat} {bs : List Byte} :
    readBytes m a n = .ok bs ↔
      bs.length = n ∧ ∀ (i : Nat) (h : i < bs.length), readByte m (a + i) = .ok bs[i] := by
  induction n generalizing a bs with
  | zero =>
    constructor
    · intro h; cases h; simp
    · rintro ⟨h, -⟩; rw [List.length_eq_zero_iff.1 h]; rfl
  | succ n ih =>
    constructor
    · intro h
      unfold readBytes at h
      split at h
      · cases h
      · rename_i b hb
        split at h
        · cases h
        · rename_i bs' hbs
          cases h
          obtain ⟨hl, hr⟩ := ih.1 hbs
          refine ⟨by simp [hl], fun i hi => ?_⟩
          cases i with
          | zero => simpa using hb
          | succ i =>
            have := hr i (by simpa using hi)
            simpa [Nat.add_assoc, Nat.add_comm 1 i] using this
    · rintro ⟨hl, hr⟩
      cases bs with
      | nil => simp at hl
      | cons b bs =>
        have hb : readByte m a = .ok b := hr 0 (Nat.succ_pos _)
        have hbs : readBytes m (a + 1) n = .ok bs := by
          refine ih.2 ⟨by simpa using hl, fun i hi => ?_⟩
          have := hr (i + 1) (by simpa using hi)
          simpa [Nat.add_assoc, Nat.add_comm 1 i] using this
        simp [readBytes, hb, hbs]

/-- A read of consecutive bytes inside bytes known to be held. -/
theorem readBytes_of_readBytes {m : Memory} {bs : List Byte} {len : Nat}
    (h : readBytes m 0 len = .ok bs) {a n : Nat} (hn : a + n ≤ len) :
    readBytes m a n = .ok ((bs.drop a).take n) := by
  obtain ⟨hl, hr⟩ := readBytes_eq_ok.1 h
  refine readBytes_eq_ok.2 ⟨by simp; omega, fun i hi => ?_⟩
  have hi' : i < n ∧ a + i < bs.length := by simp at hi; omega
  have := hr (a + i) hi'.2
  simpa using this

/-- A read of one byte inside bytes known to be held. -/
theorem readByte_of_readBytes {m : Memory} {bs : List Byte} {len a : Nat}
    (h : readBytes m 0 len = .ok bs) (ha : a < bs.length) : readByte m a = .ok bs[a] := by
  simpa using (readBytes_eq_ok.1 h).2 a ha

/-- Everything `memRead` can answer without stopping: BE of the bytes read. -/
theorem memRead_eq_ok {m : Memory} {a n v : Nat} :
    memRead m a n = .ok v ↔ ∃ bs, readBytes m a n = .ok bs ∧ beValue bs = v := by
  unfold memRead
  cases readBytes m a n <;> simp

/-- A byte is listed exactly when its index is among the keys. -/
theorem lookupCell_isSome_iff (m : Memory) (a : Nat) :
    (lookupCell m a).isSome = true ↔ a ∈ m.map Prod.fst := by
  induction m with
  | nil => simp [lookupCell]
  | cons c m ih =>
    obtain ⟨k, v⟩ := c
    unfold lookupCell
    split_ifs with h
    · simp [h]
    · rw [ih]; simp [Ne.symm h]

/-- Writing past the last listed index adds its index at the end. -/
theorem insertCell_keys_append {m : Memory} {a : Nat} (b : Byte)
    (h : ∀ k ∈ m.map Prod.fst, k < a) :
    (insertCell m a b).map Prod.fst = m.map Prod.fst ++ [a] := by
  induction m with
  | nil => rfl
  | cons c m ih =>
    obtain ⟨k, v⟩ := c
    have hk : k < a := h k (by simp)
    unfold insertCell
    rw [if_neg (by omega), if_neg (by omega)]
    simp only [List.map_cons, List.cons_append]
    rw [ih (fun x hx => h x (List.mem_cons_of_mem _ hx))]

end Sys2Proof.Machine
end

