-- ==== Sys2Proof/Laws/Ops.lean ====
section
/-! SUPPORT. One lemma per shared operation that says once everything it can do, for proofs to cite. -/

namespace Sys2Proof.Machine

/-- Everything `appendBuffer` can do: the byte lands at WP and WP moves on, or the model stops because
the unit has no byte there. -/
theorem appendBuffer_cases (b : Byte) (s : State) :
    (s.wp.toNat < Config.bufLen ∧
      appendBuffer b s =
        .next { s with buf := insertCell s.buf s.wp.toNat b, wp := s.wp + 1#6 }) ∨
    (Config.bufLen ≤ s.wp.toNat ∧ appendBuffer b s = .fault (.noSuchByte s.wp.toNat)) := by
  unfold appendBuffer writeByte
  split_ifs with h
  · exact .inl ⟨h, rfl⟩
  · exact .inr ⟨by omega, rfl⟩

/-- Everything `extractField` can do: fault on the wrong WP, else write the field's value, else stop
because a byte of the field holds no value. -/
theorem extractField_cases (len : Nat) (f : FaultCode) (w : CmdWord)
    (value : Memory → Except Fault Nat) (s : State) :
    (s.wp.toNat ≠ len ∧ extractField len f w value s = .next (raiseFault f w s)) ∨
    (s.wp.toNat = len ∧ ∃ v, value s.buf = .ok v ∧
      extractField len f w value s = .next (writeAcc v s)) ∨
    (s.wp.toNat = len ∧ ∃ e, value s.buf = .error e ∧ extractField len f w value s = .fault e) := by
  unfold extractField
  split_ifs with h
  · split
    · exact .inr (.inl ⟨h, _, ‹_›, rfl⟩)
    · exact .inr (.inr ⟨h, _, ‹_›, rfl⟩)
  · exact .inl ⟨h, rfl⟩

/-- Everything `loadByte` can do: fault on an index not below WP, else write the byte, else stop because
the byte holds no value. -/
theorem loadByte_cases (imm : Byte) (w : CmdWord) (s : State) :
    (s.wp.toNat ≤ imm.toNat ∧ loadByte imm w s = .next (raiseFault .bufUnwritten w s)) ∨
    (imm.toNat < s.wp.toNat ∧ ∃ b, readByte s.buf imm.toNat = .ok b ∧
      loadByte imm w s = .next (writeAcc b.toNat s)) ∨
    (imm.toNat < s.wp.toNat ∧ ∃ e, readByte s.buf imm.toNat = .error e ∧
      loadByte imm w s = .fault e) := by
  unfold loadByte
  split_ifs with h
  · exact .inl ⟨h, rfl⟩
  · split
    · exact .inr (.inl ⟨by omega, _, ‹_›, rfl⟩)
    · exact .inr (.inr ⟨by omega, _, ‹_›, rfl⟩)

/-- Everything a command's rule can do when it answers a next state: take a fault with its own word, or
make one of the four updates. -/
theorem exec_next_cases {i : Instr} {s t : State} (h : exec i s = .next t) :
    (∃ f, t = raiseFault f (encode i) s) ∨
    (∃ v, t = writeAcc v s ∧ i ≠ .rclr ∧ ∀ b, i ≠ .apush b ∧ i ≠ .rpush b) ∨
    (∃ b, i = .apush b ∧ t = appendAcc b s) ∨
    (i = .rclr ∧ t = clearBuffer s) ∨
    (∃ b, i = .rpush b ∧ s.wp.toNat < Config.bufLen ∧
      t = { s with buf := insertCell s.buf s.wp.toNat b, wp := s.wp + 1#6 }) := by
  have extract : ∀ {len f value}, extractField len f (encode i) value s = .next t →
      (∃ f, t = raiseFault f (encode i) s) ∨ (∃ v, t = writeAcc v s) := by
    intro len f value h
    rcases extractField_cases len f (encode i) value s with ⟨-, e⟩ | ⟨-, v, -, e⟩ | ⟨-, v, -, e⟩ <;>
      rw [e] at h <;> cases h
    · exact .inl ⟨_, rfl⟩
    · exact .inr ⟨_, rfl⟩
  cases i with
  | aclr => cases h; exact .inr (.inl ⟨0, rfl, by simp, by simp⟩)
  | apush b => cases h; exact .inr (.inr (.inl ⟨b, rfl, rfl⟩))
  | rclr => cases h; exact .inr (.inr (.inr (.inl ⟨rfl, rfl⟩)))
  | rpush b =>
    simp only [exec, execRpush] at h
    split_ifs at h with hw
    · cases h; exact .inl ⟨_, rfl⟩
    · rcases appendBuffer_cases b s with ⟨hlt, e⟩ | ⟨-, e⟩ <;> rw [e] at h <;> cases h
      exact .inr (.inr (.inr (.inr ⟨b, rfl, hlt, rfl⟩)))
  | rldb b =>
    simp only [exec, execRldb] at h
    rcases loadByte_cases b (encode (.rldb b)) s with ⟨-, e⟩ | ⟨-, v, -, e⟩ | ⟨-, v, -, e⟩ <;>
      rw [e] at h <;> cases h
    · exact .inl ⟨_, rfl⟩
    · exact .inr (.inl ⟨_, rfl, by simp, by simp⟩)
  | _ => exact (extract h).imp_right (fun ⟨v, e⟩ => .inl ⟨v, e, by simp, by simp⟩)

end Sys2Proof.Machine
end

