-- ==== Sys2Proof/Laws/PerInstr.lean ====
section
/-! SUPPORT. What holds of every command as syntax, one lemma per constructor: its word is accepted by
its own row of the opcode map (spec/30_encoding.md R54) and by no other, and it is well formed. -/

namespace Sys2Proof.Laws.Encoding

/-- The rows of the opcode map that accept the command's word are its own row alone. -/
def Statement (i : Instr) : Prop :=
  i.wf = true ∧
    (opcodeMap.filter (fun r => r.accepts (encode i))).map OpcodeRow.mnemonic = [i.mnemonic]

theorem aclr : Statement .aclr := by unfold Statement; decide
theorem apush (imm : Byte) : Statement (.apush imm) := by
  revert imm; unfold Statement; decide
theorem rclr : Statement .rclr := by unfold Statement; decide
theorem rpush (imm : Byte) : Statement (.rpush imm) := by
  revert imm; unfold Statement; decide
theorem rldb (imm : Byte) : Statement (.rldb imm) := by
  revert imm; unfold Statement; decide
theorem hlast : Statement .hlast := by unfold Statement; decide
theorem htype : Statement .htype := by unfold Statement; decide
theorem hlen : Statement .hlen := by unfold Statement; decide
theorem xminblk : Statement .xminblk := by unfold Statement; decide
theorem xmaxblk : Statement .xmaxblk := by unfold Statement; decide
theorem xminfrm : Statement .xminfrm := by unfold Statement; decide
theorem xmaxfrm : Statement .xmaxfrm := by unfold Statement; decide
theorem xrate : Statement .xrate := by unfold Statement; decide
theorem xchan : Statement .xchan := by unfold Statement; decide
theorem xbps : Statement .xbps := by unfold Statement; decide
theorem xtotal : Statement .xtotal := by unfold Statement; decide

end Sys2Proof.Laws.Encoding
end

