-- ==== Sys2Proof/Laws/Step.lean ====
section
/-! SUPPORT. Everything a step can do, once. -/

namespace Sys2Proof.Machine

/-- With nothing presented any more a step is idle. -/
theorem step_of_inputs_nil {s : State} (h : s.inputs = []) : step s = .next s := by
  simp [step, portStep, h]

/-- A step evaluates the next input and takes it off the list. -/
theorem step_of_inputs_cons {s : State} {p : PortInput} {rest : List PortInput}
    (h : s.inputs = p :: rest) : step s = evalInputs p { s with inputs := rest } := by
  simp [step, portStep, h]

/-- Everything `acceptCommand` can do. -/
theorem acceptCommand_cases (w : CmdWord) (s : State) :
    (s.err = true ∧ acceptCommand w s = .next s) ∨
    (s.err = false ∧ ∃ e, decode w = .error e ∧
      acceptCommand w s = .next (raiseFault .illegalCmd w s)) ∨
    (s.err = false ∧ ∃ i, decode w = .ok i ∧ acceptCommand w s = exec i s) := by
  unfold acceptCommand
  split_ifs with h
  · exact .inl ⟨h, rfl⟩
  · have h : s.err = false := by simpa using h
    split
    · exact .inr (.inr ⟨h, _, ‹_›, rfl⟩)
    · exact .inr (.inl ⟨h, _, ‹_›, rfl⟩)

/-- Everything `evalInputs` can do. -/
theorem evalInputs_cases (p : PortInput) (s : State) :
    (p.rst = true ∧ evalInputs p s = .next (resetUnit s)) ∨
    (p.rst = false ∧ p.cmdValid = true ∧ evalInputs p s = acceptCommand p.cmd s) ∨
    (p.rst = false ∧ p.cmdValid = false ∧ evalInputs p s = .next s) := by
  unfold evalInputs
  cases p.rst <;> cases p.cmdValid <;> simp

/-- No command's rule is a refusal. -/
theorem exec_ne_refused (i : Instr) (s : State) (r : Refusal) : exec i s ≠ .refused r := by
  have extract : ∀ len f w value, extractField len f w value s ≠ .refused r := by
    intro len f w value
    rcases extractField_cases len f w value s with ⟨-, e⟩ | ⟨-, v, -, e⟩ | ⟨-, v, -, e⟩ <;> simp [e]
  cases i with
  | aclr => simp [exec, execAclr]
  | apush b => simp [exec, execApush]
  | rclr => simp [exec, execRclr]
  | rpush b =>
    simp only [exec, execRpush]
    split_ifs
    · simp
    · rcases appendBuffer_cases b s with ⟨-, e⟩ | ⟨-, e⟩ <;> simp [e]
  | rldb b =>
    simp only [exec, execRldb]
    rcases loadByte_cases b (encode (.rldb b)) s with ⟨-, e⟩ | ⟨-, v, -, e⟩ | ⟨-, v, -, e⟩ <;> simp [e]
  | _ => exact extract _ _ _ _

end Sys2Proof.Machine
end

