-- ==== Sys2Proof/Laws/Safety.lean ====
section
/-! SUPPORT. What a held byte sequence says about the buffer, for proofs to cite. -/

namespace Sys2Proof.Machine

/-- A held record has WP at its length. -/
theorem wp_of_holds {n : Nat} {r : Vector Byte n} {s : State} (h : Holds r.toList s) :
    s.wp.toNat = n := by
  simpa using h.1

/-- Each byte of a held record reads as itself. -/
theorem readByte_of_holds {n : Nat} {r : Vector Byte n} {s : State} (h : Holds r.toList s) (i : Nat)
    (hi : i < n) : readByte s.buf i = .ok r[i] := by
  have hb := readByte_of_readBytes h.2 (a := i) (by simpa using hi)
  simpa using hb

/-- With the buffer's invariant every byte below WP holds a value. -/
theorem readByte_of_bufferInv {s : State} (h : BufferInv s) {a : Nat} (ha : a < s.wp.toNat) :
    ∃ b, readByte s.buf a = .ok b := by
  have hm : a ∈ s.buf.map Prod.fst := by rw [h.2.2]; simpa using ha
  obtain ⟨b, hb⟩ := Option.isSome_iff_exists.1 ((lookupCell_isSome_iff s.buf a).2 hm)
  have hw : s.wp.toNat ≤ 34 := h.2.1
  exact ⟨b, by simp [readByte, hb]; omega⟩

/-- The invariant does not speak of what the host presents. -/
theorem unitInv_inputs {s : State} (h : UnitInv s) (inputs : List PortInput) :
    UnitInv { s with inputs := inputs } := h

end Sys2Proof.Machine
end

