-- ==== Sys2Proof/Tests/Slice0.lean ====
section
/-! SUPPORT. Tests of this model's own work. Expected values come from spec/95_test_vectors.md and from
the examples and corner cases of the rules; each group names its source. After them, for each statement
with hypotheses, a concrete case that meets them. -/

namespace Sys2Proof.Tests

open Sys2Proof.Machine Sys2Proof.Claims

/-! ### Helpers -/

/-- The next state, where a step or a command answers one. -/
def next? : StepResult → Option State
  | .next t => some t
  | .fault _ => none
  | .refused _ => none

/-- Cells for bytes from an index on. -/
def cellsFrom : Nat → List Byte → Memory
  | _, [] => []
  | a, b :: bs => (a, b) :: cellsFrom (a + 1) bs

/-- The reset state with the given bytes in the buffer. -/
def loaded (bs : List Byte) : State :=
  { State.reset with buf := cellsFrom 0 bs, wp := BitVec.ofNat 6 bs.length }

/-- The reset state with a value in ACC. -/
def withAcc (v : AccWord) (ovf : Bool) : State :=
  { State.reset with acc := v, ovf := ovf, z := decide (v = 0#64) }

/-- A frozen state: HLEN (0x3200) faulted straight after reset. -/
def frozen : State :=
  { State.reset with err := true, errc := 3#4, errw := 0x3200#16 }

/-- What the host presents next. -/
def presenting (ps : List PortInput) (s : State) : State := { s with inputs := ps }

/-- Record A of 95_test_vectors.md 2.4. -/
def recordA : Vector Byte 34 :=
  #v[0x10, 0x00, 0x10, 0x00, 0x00, 0x00, 0x0E, 0x00, 0x32, 0xC8, 0x0A, 0xC4, 0x42, 0xF0, 0x00, 0x06,
    0xBA, 0xA8, 0x00, 0x11, 0x22, 0x33, 0x44, 0x55, 0x66, 0x77, 0x88, 0x99, 0xAA, 0xBB, 0xCC, 0xDD,
    0xEE, 0xFF]

/-- Record I of 95_test_vectors.md 2.4. -/
def recordI : Vector Byte 34 :=
  #v[0x00, 0x10, 0xFF, 0xFF, 0x00, 0x00, 0x01, 0xAB, 0xCD, 0xEF, 0x17, 0x70, 0x0B, 0x78, 0x00, 0x00,
    0x00, 0x00, 0x01, 0x23, 0x45, 0x67, 0x89, 0xAB, 0xCD, 0xEF, 0xFE, 0xDC, 0xBA, 0x98, 0x76, 0x54,
    0x32, 0x10]

/-- Header H3 of 95_test_vectors.md 2.3. -/
def headerH3 : Vector Byte 4 := #v[0x84, 0x00, 0x01, 0x2C]

/-- Header H2 of 95_test_vectors.md 2.3. -/
def headerH2 : Vector Byte 4 := #v[0x80, 0x00, 0x00, 0x22]

/-- ACC and Z after one command. -/
def accZ (i : Instr) (s : State) : Option (Nat × Bool) :=
  (next? (exec i s)).map (fun t => (t.acc.toNat, t.z))

/-- STATUS and ERRW after one command, with the buffer and WP compared to those before. -/
def faultView (i : Instr) (s : State) : Option (BitVec 16 × CmdWord × Bool) :=
  (next? (exec i s)).map (fun t =>
    (statusPort t, errwPort t, decide (t.buf = s.buf ∧ t.wp = s.wp ∧ t.acc = s.acc)))

/-! ### Decoding (30_encoding.md R54: op in bits 15:8, imm in bits 7:0) -/

theorem test_decode_aclr : decode 0b0001000000000000#16 = .ok .aclr := by decide
theorem test_decode_apush : decode 0b0001000111111111#16 = .ok (.apush 0xFF#8) := by decide
theorem test_decode_rclr : decode 0b0010000000000000#16 = .ok .rclr := by decide
theorem test_decode_rpush : decode 0b0010000110000100#16 = .ok (.rpush 0x84#8) := by decide
theorem test_decode_rldb : decode 0b0010001000100001#16 = .ok (.rldb 33#8) := by decide
theorem test_decode_hlast : decode 0b0011000000000000#16 = .ok .hlast := by decide
theorem test_decode_htype : decode 0b0011000100000000#16 = .ok .htype := by decide
theorem test_decode_hlen : decode 0b0011001000000000#16 = .ok .hlen := by decide
theorem test_decode_xminblk : decode 0b0100000000000000#16 = .ok .xminblk := by decide
theorem test_decode_xmaxblk : decode 0b0100000100000000#16 = .ok .xmaxblk := by decide
theorem test_decode_xminfrm : decode 0b0100001000000000#16 = .ok .xminfrm := by decide
theorem test_decode_xmaxfrm : decode 0b0100001100000000#16 = .ok .xmaxfrm := by decide
theorem test_decode_xrate : decode 0b0100010000000000#16 = .ok .xrate := by decide
theorem test_decode_xchan : decode 0b0100010100000000#16 = .ok .xchan := by decide
theorem test_decode_xbps : decode 0b0100011000000000#16 = .ok .xbps := by decide
theorem test_decode_xtotal : decode 0b0100011100000000#16 = .ok .xtotal := by decide

/-- E1 to E6: the words that are no command, rejected by name. -/
theorem test_decode_rejects :
    decode 0x0000#16 = .error (.unknownOpcode 0x00#8) ∧
    decode 0xFFFF#16 = .error (.unknownOpcode 0xFF#8) ∧
    decode 0x1001#16 = .error (.nonzeroImm 0x10#8 0x01#8) ∧
    decode 0x4401#16 = .error (.nonzeroImm 0x44#8 0x01#8) ∧
    decode 0x1200#16 = .error (.unknownOpcode 0x12#8) ∧
    decode 0x2300#16 = .error (.unknownOpcode 0x23#8) ∧
    decode 0x3300#16 = .error (.unknownOpcode 0x33#8) ∧
    decode 0x4800#16 = .error (.unknownOpcode 0x48#8) ∧
    decode 0x5000#16 = .error (.unknownOpcode 0x50#8) := by decide

theorem test_decodeTableWord :
    decodeTableWord 16 0x2212 = some (.rldb 18#8) ∧ decodeTableWord 16 0x4401 = none ∧
    decodeTableWord 32 0x14400 = none := by decide

/-! ### Well-formedness: an ill-formed term for each check -/

/-- R55: reserved words are refused; an `Instr` has no ill-formed term, its operand being a byte by
type (R68). -/
theorem test_wellFormed_words :
    legalWord 0x1100#16 = true ∧ legalWord 0x2000#16 = true ∧ legalWord 0x4700#16 = true ∧
    legalWord 0x0000#16 = false ∧ legalWord 0x2001#16 = false ∧ legalWord 0x4800#16 = false ∧
    Instr.wf (.rldb 0xFF#8) = true := by decide

/-- R60: LOADHDR takes four bytes, LOADREC exactly 34, RMD5 an index from 0 to 15. -/
theorem test_wellFormed_pseudo :
    Pseudo.wf (.loadHdr [0#8, 1#8, 2#8]) = false ∧ Pseudo.wf (.loadHdr headerH3.toList) = true ∧
    Pseudo.wf (.loadRec (List.replicate 33 0#8)) = false ∧ Pseudo.wf (.loadRec recordA.toList) = true ∧
    Pseudo.wf (.rmd5 16) = false ∧ Pseudo.wf (.rmd5 15) = true := by decide

/-! ### Assembler syntax (R59, R60) -/

/-- R59's program lines, hexadecimal, decimal with a comment; and a comment alone. -/
theorem test_assemble :
    assembleLine ['A', 'P', 'U', 'S', 'H', ' ', '0', 'x', '0', '1'] = some [.apush 1#8] ∧
    assembleLine ['A', 'P', 'U', 'S', 'H', ' ', '2', '5', '5', ' ', '#', ' ', 'A'] =
      some [.apush 255#8] ∧
    assembleLine ['#', 'A', 'C', 'L', 'R'] = some [] ∧
    assembleLine ['A', 'P', 'U', 'S', 'H', ' ', '2', '5', '6'] = none ∧
    assembleLine ['A', 'C', 'L', 'R', ' ', '0'] = none ∧
    assembleLine ['a', 'c', 'l', 'r'] = none := by decide

/-- R60: DECODE with no byte is ACLR alone; RMD5 0 is RLDB 18; RMD5 takes 0 to 15, LOADHDR four bytes. -/
theorem test_assemble_pseudo :
    assembleLine ['D', 'E', 'C', 'O', 'D', 'E'] = some [.aclr] ∧
    assembleLine ['D', 'E', 'C', 'O', 'D', 'E', ' ', '1', ',', ' ', '2'] =
      some [.aclr, .apush 1#8, .apush 2#8] ∧
    assembleLine ['R', 'M', 'D', '5', ' ', '0'] = some [.rldb 18#8] ∧
    assembleLine ['R', 'M', 'D', '5', ' ', '1', '6'] = none ∧
    assembleLine ['L', 'O', 'A', 'D', 'H', 'D', 'R', ' ', '1', ',', '2', ',', '3'] = none := by decide

/-! ### Reset and the step (R22, R140, R19, R125; vectors E8 to E10) -/

theorem test_reset_ports :
    accPort State.reset = 0#64 ∧ statusPort State.reset = 0x0001#16 ∧ errwPort State.reset = 0#16 := by
  decide

/-- E9: `rst` with a command word presented resets a frozen unit. -/
theorem test_step_reset :
    next? (step (presenting [⟨true, true, 0x1107#16⟩] frozen)) = some State.reset := by decide

/-- E8, P5: a frozen unit ignores a legal command. -/
theorem test_step_frozen :
    next? (step (presenting [presentWord 0x1000#16] frozen)) = some frozen := by decide

/-- E10: an idle step. -/
theorem test_step_idle :
    next? (step (presenting [presentIdle] (withAcc 5#64 true))) = some (withAcc 5#64 true) := by decide

/-- E5: 0x4401 at WP = 0 is `IllegalCmd` (code 1), not `RecLenMismatch`. -/
theorem test_step_illegal :
    (next? (step (presenting [presentWord 0x4401#16] State.reset))).map
      (fun t => (statusPort t, errwPort t)) = some (0x0015#16, 0x4401#16) := by decide

/-- A placed word is what the next step runs (E7: APUSH 0xFF after reset). -/
theorem test_withFetchWord :
    (next? (step (State.reset.withFetchWord 16 0x11FF))).map (fun t => t.acc.toNat) = some 255 := by
  decide

/-! ### The A family (R69, R70; vectors A5, A14, A16, A17, A18) -/

/-- R69's example. -/
theorem test_aclr : accZ .aclr (withAcc 0x1234#64 true) = some (0, true) := by decide

/-- A18: ACLR clears OVF. -/
theorem test_aclr_ovf :
    (next? (exec .aclr (withAcc 0#64 true))).map (fun t => t.ovf) = some false := by decide

/-- A14: the ninth byte loses the top byte, and OVF says so. -/
theorem test_apush_spills :
    (next? (exec (.apush 0x11#8) (withAcc 0x123456789ABCDEF0#64 false))).map
      (fun t => (t.acc, t.z, t.ovf)) = some (0x3456789ABCDEF011#64, false, true) := by decide

/-- A16, A17: the byte pushed out leaves ACC at 0 with OVF set, and OVF is sticky. -/
theorem test_apush_zero_and_sticky :
    (next? (exec (.apush 0#8) (withAcc 0x0100000000000000#64 false))).map
      (fun t => (t.acc, t.z, t.ovf)) = some (0#64, true, true) ∧
    (next? (exec (.apush 0#8) (withAcc 0#64 true))).map (fun t => (t.acc, t.z, t.ovf)) =
      some (0#64, true, true) := by decide

/-! ### The R family (vectors B1 to B14) -/

/-- B4: RCLR from WP = 4. -/
theorem test_rclr :
    (next? (exec .rclr (loaded headerH3.toList))).map (fun t => (t.wp, t.buf)) = some (0#6, []) := by
  decide

/-- B1: RPUSH 0x84 after reset. -/
theorem test_rpush :
    (next? (exec (.rpush 0x84#8) State.reset)).map (fun t => (statusPort t, t.buf)) =
      some (0x0101#16, [(0, 0x84#8)]) := by decide

/-- B2, B3: the 34th push succeeds; the 35th faults `BufFull` and changes nothing else. -/
theorem test_rpush_full :
    (next? (exec (.rpush 0xAA#8) (loaded (List.replicate 33 0#8)))).map
      (fun t => (t.wp, next? (exec (.rldb 33#8) t) |>.map (fun u => u.acc))) =
        some (34#6, some 0xAA#64) ∧
    faultView (.rpush 0xBB#8) (loaded recordA.toList) = some (0x2225#16, 0x21BB#16, true) := by decide

/-- B6: RLDB 2 of 01 02 03. -/
theorem test_rldb : accZ (.rldb 2#8) (loaded [1#8, 2#8, 3#8]) = some (3, false) := by decide

/-- B8, B11, B12: an index not below WP faults `BufUnwritten`. -/
theorem test_rldb_unwritten :
    faultView (.rldb 0#8) State.reset = some (0x0055#16, 0x2200#16, true) ∧
    faultView (.rldb 34#8) (loaded recordA.toList) = some (0x2255#16, 0x2222#16, true) ∧
    faultView (.rldb 255#8) (loaded recordA.toList) = some (0x2255#16, 0x22FF#16, true) := by decide

/-! ### The H family (vectors H2, H3) -/

theorem test_hlast :
    accZ .hlast (loaded headerH3.toList) = some (1, false) ∧
    accZ .hlast (loaded [0x7F#8, 0#8, 0#8, 0#8]) = some (0, true) := by decide
theorem test_htype :
    accZ .htype (loaded headerH3.toList) = some (4, false) ∧
    accZ .htype (loaded headerH2.toList) = some (0, true) := by decide
theorem test_hlen :
    accZ .hlen (loaded headerH3.toList) = some (300, false) ∧
    accZ .hlen (loaded headerH2.toList) = some (34, false) := by decide

/-- "reset then `HLEN` gives STATUS = 0x0035, ERRW = 0x3200". -/
theorem test_hlen_fault : faultView .hlen State.reset = some (0x0035#16, 0x3200#16, true) := by decide

/-! ### The X family (records A and I) -/

theorem test_xminblk :
    accZ .xminblk (loaded recordA.toList) = some (4096, false) ∧
    accZ .xminblk (loaded recordI.toList) = some (16, false) := by decide
theorem test_xmaxblk :
    accZ .xmaxblk (loaded recordA.toList) = some (4096, false) ∧
    accZ .xmaxblk (loaded recordI.toList) = some (65535, false) := by decide
theorem test_xminfrm :
    accZ .xminfrm (loaded recordA.toList) = some (14, false) ∧
    accZ .xminfrm (loaded recordI.toList) = some (1, false) := by decide
theorem test_xmaxfrm :
    accZ .xmaxfrm (loaded recordA.toList) = some (13000, false) ∧
    accZ .xmaxfrm (loaded recordI.toList) = some (11259375, false) := by decide
theorem test_xrate :
    accZ .xrate (loaded recordA.toList) = some (44100, false) ∧
    accZ .xrate (loaded recordI.toList) = some (96000, false) := by decide
theorem test_xchan :
    accZ .xchan (loaded recordA.toList) = some (1, false) ∧
    accZ .xchan (loaded recordI.toList) = some (5, false) := by decide
theorem test_xbps :
    accZ .xbps (loaded recordA.toList) = some (15, false) ∧
    accZ .xbps (loaded recordI.toList) = some (23, false) := by decide
theorem test_xtotal :
    accZ .xtotal (loaded recordA.toList) = some (441000, false) ∧
    accZ .xtotal (loaded recordI.toList) = some (34359738368, false) := by decide

/-- P5 command 6: XRATE on a 4-byte buffer. -/
theorem test_xrate_fault :
    faultView .xrate (loaded [0#8, 0#8, 0#8, 0x22#8]) = some (0x0445#16, 0x4400#16, true) := by decide

/-- Record Z: rate 0 with the neighbouring bits all set gives 0 with Z = 1 and no fault. -/
theorem test_xrate_zero :
    (next? (exec .xrate (loaded (List.replicate 12 0#8 ++ [0x0F#8, 0xF0#8] ++ List.replicate 20 0#8)))).map
      (fun t => (t.acc, t.z, t.err)) = some (0#64, true, false) := by decide

/-- A slice is most significant first: the sample rate of record A is `slice(80, 20)`. -/
theorem test_slice : slice recordA.toList 80 20 = some 44100 ∧ slice recordA.toList 271 2 = none := by
  decide

/-! ### Witnesses: for each statement with hypotheses, a case that meets them -/

/-- The invariant, in a full, an empty and a frozen state. -/
theorem test_witness_unitInv :
    UnitInv (loaded recordA.toList) ∧ UnitInv State.reset ∧ UnitInv frozen := by
  simp only [UnitInv, BufferInv, FlagInv, FaultInv]; decide

/-- Records and headers that are held: `FieldRule`, `HeaderFieldsPartitionTheHeader`,
`RecordFieldsPartitionTheRecord`, `Md5IsReadByteByByte`, `MixedWidthReadsSeeTheSameBytes`. -/
theorem test_witness_holds :
    Holds recordA.toList (loaded recordA.toList) ∧ Holds headerH3.toList (loaded headerH3.toList) ∧
    Holds [] State.reset := by
  unfold Holds; decide

/-- `FieldRule`, the other clause: WP just below and just above the length it asks for. -/
theorem test_witness_wrongLength :
    (loaded (List.replicate 33 0#8)).wp.toNat ≠ 34 ∧ (loaded [0#8, 0#8, 0#8]).wp.toNat ≠ 4 ∧
    (loaded [0#8, 0#8, 0#8, 0#8, 0#8]).wp.toNat ≠ 4 := by decide

/-- `RstResetsTheUnitAndNothingElseClearsErr`. -/
theorem test_witness_rst :
    (presenting [presentReset] frozen).inputs = [presentReset] ∧ presentReset.rst = true ∧
    (presenting [presentReset] frozen).err = true ∧
    step (presenting [presentReset] frozen) = .next State.reset ∧ State.reset.err = false :=
  ⟨rfl, rfl, rfl, rfl, rfl⟩

/-- `InputPortsSelectWhatTheStepDoes`: each kind of input. -/
theorem test_witness_inputs :
    presentReset.rst = true ∧
    (presentWord 0x1000#16).rst = false ∧ (presentWord 0x1000#16).cmdValid = true ∧
    presentIdle.rst = false ∧ presentIdle.cmdValid = false ∧ State.reset.inputs = [] := by decide

/-- `StepRunsTheDecodedCommand`, `ReservedWordsRaiseIllegalCmd`: each clause. -/
theorem test_witness_accept :
    (presenting [presentWord 0x1000#16] frozen).err = true ∧
    (presenting [presentWord 0x1001#16] State.reset).err = false ∧
    (presenting [presentWord 0x1001#16] State.reset).inputs = [presentWord 0x1001#16] ∧
    decode 0x1001#16 = .error (.nonzeroImm 0x10#8 1#8) ∧ decode 0x1000#16 = .ok .aclr := by decide

/-- `FrozenUnitIgnoresEveryCommand`: inputs without `rst`; a run whose inputs come before a reset, as in
program P5; and a run that a reset ends. -/
theorem test_witness_frozen :
    (presenting [presentWord 0x1000#16, presentIdle] frozen).err = true ∧
    (∀ p ∈ (presenting [presentWord 0x1000#16, presentIdle] frozen).inputs, p.rst = false) ∧
    (∀ p ∈ (presenting [presentWord 0x1000#16, presentReset] frozen).inputs.take 1, p.rst = false) ∧
    next? (runSteps 2 (presenting [presentIdle, presentReset] frozen)) = some State.reset ∧
    (presenting [presentIdle, presentReset] frozen).err = true ∧ State.reset.err = false := by decide

/-- `StepConsumesOneInput`, `StepKeepsTheInvariant`, `StepKeepsTheCanonicalBuffer`: a step that goes on,
on a state that meets the premises. -/
theorem test_witness_step :
    step (presenting [presentWord 0x2184#16] State.reset) = .next (loaded [0x84#8]) ∧
    UnitInv (presenting [presentWord 0x2184#16] State.reset) ∧
    Memory.wf (presenting [presentWord 0x2184#16] State.reset).buf := by
  refine ⟨rfl, ?_, by decide⟩
  simp only [UnitInv, BufferInv, FlagInv, FaultInv]; decide

/-- `ImmediateIsAnUnsignedByte`: RLDB at the ends of 34 to 255, with WP at most 34. -/
theorem test_witness_rldb_range :
    (loaded recordA.toList).wp.toNat ≤ 34 ∧ 34 ≤ (34#8).toNat ∧ 34 ≤ (255#8).toNat := by decide

/-- `HowManyBytesFit`: eight and nine bytes; a width at its least. -/
theorem test_witness_lengths :
    (List.replicate 8 (0xFF#8)).length ≤ 8 ∧ 8 < (0x01#8 :: List.replicate 8 0#8).length ∧ 36 ≤ 36 := by
  decide

/-- `BigEndianRangeAndBijection`: a value in range. -/
theorem test_witness_range : 0x84 < 256 ^ 1 ∧ beValue [0x84#8] = 0x84 := by decide

/-- `AccumulatorDecodesThePushedBytes`: ACLR, APUSH 1, RCLR, RPUSH 2 from reset, no fault. -/
theorem test_witness_decode :
    (presenting (presentAll [.aclr, .apush 1#8, .rclr, .rpush 2#8]) State.reset).err = false ∧
    ((next? (runSteps 4 (presenting (presentAll [.aclr, .apush 1#8, .rclr, .rpush 2#8]) State.reset))).map
      (fun t => (t.err, t.acc))) = some (false, 1#64) := by decide

/-- `DecodePseudoInstructionCompletes`, `PushingContinuesFromTheAccumulator`, `LoadedHeaderDecodes`,
`LoadedRecordUnpacks`: a state that is not frozen, OVF 0, with the commands presented. -/
theorem test_witness_present :
    (presenting (presentAll (Pseudo.decode [1#8]).expand) State.reset).err = false ∧
    (presenting (presentAll ([1#8].map .apush)) (withAcc 7#64 false)).ovf = false ∧
    (presenting (presentAll ((Pseudo.loadHdr headerH3.toList).expand ++ [.hlast])) State.reset).inputs =
      presentAll ((Pseudo.loadHdr headerH3.toList).expand ++ [.hlast]) ++ [] ∧
    (presenting (presentAll ((Pseudo.loadRec recordA.toList).expand ++ [.xrate])) State.reset).inputs =
      presentAll ((Pseudo.loadRec recordA.toList).expand ++ [.xrate]) ++ [] := by decide

/-- `RpushAppendsToTheBuffer`, `OnlyRpushAndRclrMoveTheWritePointer`,
`MixedWidthReadsSeeTheSameBytes`: WP at 33, the last below 34, and at 34. -/
theorem test_witness_rpush :
    (loaded (List.replicate 33 0#8)).wp.toNat < 34 ∧
    (33#8).toNat = (loaded (List.replicate 33 0#8)).wp.toNat ∧
    (loaded recordA.toList).wp.toNat = 34 ∧
    exec (.rpush 0x84#8) State.reset = .next (loaded [0x84#8]) ∧
    exec .rclr (loaded [0x84#8]) = .next State.reset := ⟨by decide, by decide, by decide, rfl, rfl⟩

/-- `RldbLoadsOneWrittenByte`: an index at WP, and the last below it, with its byte. -/
theorem test_witness_rldb :
    (loaded [1#8, 2#8, 3#8]).wp.toNat ≤ (3#8).toNat ∧
    (2#8).toNat < (loaded [1#8, 2#8, 3#8]).wp.toNat ∧
    readByte (loaded [1#8, 2#8, 3#8]).buf (2#8).toNat = .ok 3#8 ∧
    UnitInv (loaded [1#8, 2#8, 3#8]) := by
  refine ⟨by decide, by decide, rfl, ?_⟩
  simp only [UnitInv, BufferInv, FlagInv, FaultInv]; decide

/-- `RclrEmptiesTheBuffer`: WP = 0 with the invariant. -/
theorem test_witness_rclr : UnitInv (withAcc 5#64 true) ∧ (withAcc 5#64 true).wp = 0#6 := by
  simp only [UnitInv, BufferInv, FlagInv, FaultInv]; decide

/-- `SlicesAreShiftedReads`: the last bit, and the whole stream. -/
theorem test_witness_slice :
    1 ≤ 1 ∧ 271 + 1 ≤ 8 * recordA.toList.length ∧ 1 ≤ 272 ∧ 0 + 272 ≤ 8 * recordA.toList.length := by
  decide

/-- `UnpackerIsABijection`: every field at its greatest value. -/
theorem test_witness_fields :
    unpack (Vector.replicate 34 0xFF#8) =
      ⟨65535, 65535, 16777215, 16777215, 1048575, 7, 31, 68719476735, Vector.replicate 16 0xFF#8⟩ ∧
    65535 < 2 ^ 16 ∧ 16777215 < 2 ^ 24 ∧ 1048575 < 2 ^ 20 ∧ 7 < 2 ^ 3 ∧ 31 < 2 ^ 5 ∧
    68719476735 < 2 ^ 36 := by decide

/-- `WritesOfAccWriteTheFlags`, `FrameOfTheCommandsThatStoreNothing`, `LaterReadsSeeTheSameRecord`,
`FrameOfTheBufferCommands`: commands that answer a next state, faulting and not. -/
theorem test_witness_frames :
    next? (exec .hlen (loaded headerH3.toList)) =
      some { loaded headerH3.toList with acc := 300#64, z := false } ∧
    next? (exec (.rldb 1#8) (loaded headerH3.toList)) = some (loaded headerH3.toList) ∧
    (loaded headerH3.toList).err = false ∧ Reads .hlen = true ∧ Reads (.rldb 1#8) = true ∧
    next? (exec .hlen State.reset) = some frozen := by decide

/-- `FaultTableIsExact`: the buffer's invariant with a fault and without; a word that is no command. -/
theorem test_witness_table :
    BufferInv (loaded recordA.toList) ∧
    TableFault (.rpush 0#8) (loaded recordA.toList).wp.toNat = some 2#4 ∧
    TableFault .xtotal (loaded recordA.toList).wp.toNat = none ∧
    State.reset.err = false ∧ legalWord 0x0000#16 = false := by
  refine ⟨?_, by decide, by decide, rfl, by decide⟩
  simp only [BufferInv]; decide

/-- `FaultEntryWritesOnlyTheFaultRegisters`: HLEN straight after reset. -/
theorem test_witness_fault :
    State.reset.err = false ∧
    step (presenting [presentWord 0x3200#16] State.reset) = .next frozen ∧ frozen.err = true :=
  ⟨rfl, rfl, rfl⟩

/-- `DecodeCheckComesBeforeThePrecondition`: E4, 0x4401 with a full record. -/
theorem test_witness_precedence :
    (presenting [presentWord (0x44#8 ++ 0x01#8)] (loaded recordA.toList)).err = false ∧
    (0x44#8 ∈ [0x10#8, 0x20#8, 0x30#8, 0x31#8, 0x32#8, 0x40#8, 0x41#8, 0x42#8, 0x43#8, 0x44#8, 0x45#8, 0x46#8,
      0x47#8]) ∧
    (0x20#8 ∈ [0x10#8, 0x20#8, 0x30#8, 0x31#8, 0x32#8, 0x40#8, 0x41#8, 0x42#8, 0x43#8, 0x44#8, 0x45#8,
      0x46#8, 0x47#8]) ∧
    0x01#8 ≠ 0#8 := by decide

/-- `ReachableStatesMeetTheListedFacts`: a state reached from reset. -/
theorem test_witness_reachable : Reachable (loaded [0x84#8]) :=
  ⟨[presentWord 0x2184#16], 1, rfl⟩

end Sys2Proof.Tests
end

/-! SUPPORT. The range of every value a reading command can write to ACC. -/

namespace Sys2Proof.Machine

/-- Where a computation that reads first answers a value, the read and the rest both answered. -/
theorem except_bind_eq_ok {ε α β : Type} {x : Except ε α} {f : α → Except ε β} {r : β} :
    (x >>= f) = .ok r ↔ ∃ a, x = .ok a ∧ f a = .ok r := by
  cases x <;> simp [bind, Except.bind]

/-- The big-endian value of n bytes is below 256^n (R67 (a)). -/
theorem beValue_lt (bs : List Byte) : beValue bs < 256 ^ bs.length := by
  induction bs with
  | nil => simp [beValue]
  | cons b bs ih =>
    calc b.toNat * 256 ^ bs.length + beValue bs
        < b.toNat * 256 ^ bs.length + 256 ^ bs.length := by omega
      _ = (b.toNat + 1) * 256 ^ bs.length := by ring
      _ ≤ 256 * 256 ^ bs.length := Nat.mul_le_mul_right _ b.isLt
      _ = 256 ^ (b :: bs).length := by rw [List.length_cons, pow_succ']

theorem memRead_lt {m : Memory} {a n v : Nat} (h : memRead m a n = .ok v) : v < 2 ^ (8 * n) := by
  obtain ⟨bs, hbs, rfl⟩ := memRead_eq_ok.1 h
  rw [pow_mul, ← (readBytes_eq_ok.1 hbs).1]
  exact beValue_lt bs

theorem hlastValue_lt {m : Memory} {v : Nat} (h : hlastValue m = .ok v) : v < 2 ^ 1 := by
  obtain ⟨b, -, hv⟩ := except_bind_eq_ok.1 h
  cases hv
  have := b.isLt
  rw [Nat.shiftRight_eq_div_pow]; omega

theorem htypeValue_lt {m : Memory} {v : Nat} (h : htypeValue m = .ok v) : v < 2 ^ 7 := by
  obtain ⟨b, -, hv⟩ := except_bind_eq_ok.1 h
  cases hv
  exact Nat.and_lt_two_pow _ (by decide)

theorem xrateValue_lt {m : Memory} {v : Nat} (h : xrateValue m = .ok v) : v < 2 ^ 20 := by
  obtain ⟨u, hu, hv⟩ := except_bind_eq_ok.1 h
  cases hv
  have := memRead_lt hu
  rw [Nat.shiftRight_eq_div_pow]; omega

theorem xchanValue_lt {m : Memory} {v : Nat} (h : xchanValue m = .ok v) : v < 2 ^ 3 := by
  obtain ⟨b, -, hv⟩ := except_bind_eq_ok.1 h
  cases hv
  exact Nat.and_lt_two_pow _ (by decide)

theorem xbpsValue_lt {m : Memory} {v : Nat} (h : xbpsValue m = .ok v) : v < 2 ^ 5 := by
  obtain ⟨b12, -, h⟩ := except_bind_eq_ok.1 h
  obtain ⟨b13, -, hv⟩ := except_bind_eq_ok.1 h
  cases hv
  have h12 : b12.toNat &&& 0x01 < 2 ^ 1 := Nat.and_lt_two_pow _ (by decide)
  have h13 := b13.isLt
  exact Nat.or_lt_two_pow (by rw [Nat.shiftLeft_eq]; omega)
    (by rw [Nat.shiftRight_eq_div_pow]; omega)

theorem xtotalValue_lt {m : Memory} {v : Nat} (h : xtotalValue m = .ok v) : v < 2 ^ 36 := by
  obtain ⟨b13, -, h⟩ := except_bind_eq_ok.1 h
  obtain ⟨rest, hrest, hv⟩ := except_bind_eq_ok.1 h
  cases hv
  have hnibble : (b13 &&& 0x0F#8).toNat < 2 ^ 4 := Nat.and_lt_two_pow _ (by decide)
  have hlow := beValue_lt rest
  rw [(readBytes_eq_ok.1 hrest).1] at hlow
  rw [beValue, (readBytes_eq_ok.1 hrest).1]
  omega

/-! What STATUS shows. -/

/-- STATUS bit by bit (R18), from bit 0 up. `statusWord` is a concatenation whose type shows only the
width 16, so the proof first names the widths of its parts; then both sides are one ladder of ranges. -/
theorem statusWord_getLsbD (s : State) (k : Nat) :
    (statusWord s).getLsbD k =
      if k < 1 then s.z else if k < 2 then s.ovf else if k < 3 then s.err else if k < 4 then false
      else if k < 8 then s.errc.getLsbD (k - 4) else if k < 14 then s.wp.getLsbD (k - 8) else false := by
  change BitVec.getLsbD (w := 2 + 6 + 4 + 1 + 1 + 1 + 1)
    (0#2 ++ s.wp ++ s.errc ++ 0#1 ++ BitVec.ofBool s.err ++ BitVec.ofBool s.ovf ++ BitVec.ofBool s.z) k = _
  simp only [BitVec.getLsbD_append, BitVec.getLsbD_ofBool, BitVec.getLsbD_zero]
  grind

/-! What a reading command's step says about the fault table (R121). -/

open Sys2Proof.Claims

/-- A command took the fault its row of the fault table names, with its own word, or it did not fault
and wrote to ACC a value that fits there. -/
def FaultsOrWrites (i : Instr) (s t : State) : Prop :=
  (∃ f, TableFault i s.wp.toNat = some (faultNumber f) ∧ t = raiseFault f (encode i) s) ∨
  (TableFault i s.wp.toNat = none ∧ ∃ v, v < 2 ^ 64 ∧ t = writeAcc v s)

/-- The two outcomes of RLDB, the H and the X commands (R83, R90, R101). -/
theorem exec_next_of_reads {i : Instr} {s t : State} (hr : Reads i = true) (h : exec i s = .next t) :
    FaultsOrWrites i s t := by
  have extract : ∀ {len f value n}, extractField len f (encode i) value s = .next t →
      n ≤ 64 → (∀ {v}, value s.buf = .ok v → v < 2 ^ n) →
      TableFault i s.wp.toNat = (if s.wp.toNat ≠ len then some (faultNumber f) else none) →
      FaultsOrWrites i s t := by
    intro len f value n h hn hlt htable
    rcases extractField_cases len f (encode i) value s with
        ⟨hwp, e⟩ | ⟨hwp, v, hv, e⟩ | ⟨-, v, -, e⟩ <;> rw [e] at h <;> cases h
    · exact .inl ⟨f, by rw [htable, if_pos hwp], rfl⟩
    · exact .inr ⟨by rw [htable, if_neg (not_not.2 hwp)], v,
        (hlt hv).trans_le (Nat.pow_le_pow_right (by decide) hn), rfl⟩
  cases i with
  | aclr => cases hr
  | apush b => cases hr
  | rclr => cases hr
  | rpush b => cases hr
  | rldb b =>
    rcases loadByte_cases b (encode (.rldb b)) s with ⟨hwp, e⟩ | ⟨hwp, v, -, e⟩ | ⟨-, v, -, e⟩ <;>
      simp only [exec, execRldb, e] at h <;> cases h
    · exact .inl ⟨.bufUnwritten, if_pos hwp, rfl⟩
    · exact .inr ⟨if_neg (by omega), v.toNat, by have := v.isLt; omega, rfl⟩
  | hlast => exact extract h (by decide) hlastValue_lt rfl
  | htype => exact extract h (by decide) htypeValue_lt rfl
  | hlen => exact extract h (by decide) memRead_lt rfl
  | xminblk => exact extract h (by decide) memRead_lt rfl
  | xmaxblk => exact extract h (by decide) memRead_lt rfl
  | xminfrm => exact extract h (by decide) memRead_lt rfl
  | xmaxfrm => exact extract h (by decide) memRead_lt rfl
  | xrate => exact extract h (by decide) xrateValue_lt rfl
  | xchan => exact extract h (by decide) xchanValue_lt rfl
  | xbps => exact extract h (by decide) xbpsValue_lt rfl
  | xtotal => exact extract h (by decide) xtotalValue_lt rfl

/-- A value that fits in ACC is held there unchanged (R16). -/
theorem writeAcc_acc_toNat {v : Nat} (s : State) (h : v < 2 ^ 64) : (writeAcc v s).acc.toNat = v := by
  rw [writeAcc_acc, BitVec.toNat_ofNat, Nat.mod_eq_of_lt h]

/-- Neither a fault nor a buffer update of RPUSH touches ACC, Z or OVF. -/
theorem exec_rpush_keeps_acc {b : Byte} {s t : State} (h : exec (.rpush b) s = .next t) :
    t.acc = s.acc ∧ t.z = s.z ∧ t.ovf = s.ovf := by
  rcases exec_next_cases h with
    ⟨f, rfl⟩ | ⟨v, -, -, hne⟩ | ⟨c, hi, -⟩ | ⟨hi, -⟩ | ⟨c, -, -, rfl⟩
  · exact ⟨rfl, rfl, rfl⟩
  · exact absurd rfl (hne b).2
  · cases hi
  · cases hi
  · exact ⟨rfl, rfl, rfl⟩

end Sys2Proof.Machine

namespace Sys2Proof.Proofs

open Sys2Proof.Machine Sys2Proof.Claims

/-- Settles O48: a reading command's two outcomes are the two disjuncts; ACLR is the second, RCLR and
RPUSH the first. -/
theorem writesOfAccWriteTheFlags : Obligations.WritesOfAccWriteTheFlags := by
  intro i s t hpush h
  by_cases hr : Reads i = true
  · rcases exec_next_of_reads hr h with ⟨f, htable, rfl⟩ | ⟨htable, v, hv, rfl⟩
    · exact .inl ⟨rfl, rfl, rfl, .inr (.inr (by simp [htable]))⟩
    · exact .inr ⟨v, hv, writeAcc_acc_toNat s hv, rfl, rfl, .inr hr, htable⟩
  · cases i with
    | aclr =>
      cases h
      exact .inr ⟨0, by decide, rfl, rfl, rfl, .inl rfl, rfl⟩
    | apush b => exact absurd rfl (hpush b)
    | rclr =>
      cases h
      exact .inl ⟨rfl, rfl, rfl, .inl rfl⟩
    | rpush b =>
      obtain ⟨hacc, hz, hovf⟩ := exec_rpush_keeps_acc h
      exact .inl ⟨hacc, hz, hovf, .inr (.inl ⟨b, rfl⟩)⟩
    | _ => exact absurd rfl hr

/-- Settles O1: the fields are `State.reset`'s own, and its empty buffer has no readable byte. -/
theorem resetLeavesTheStatedValues : Obligations.ResetLeavesTheStatedValues :=
  ⟨rfl, rfl, rfl, rfl, readByte_nil_ne_ok, rfl, rfl, rfl, rfl, rfl, rfl⟩

/-- Settles O3: the step evaluates the input it takes off the list, and each port combination selects
one branch of that evaluation. -/
theorem inputPortsSelectWhatTheStepDoes : Obligations.InputPortsSelectWhatTheStepDoes := by
  intro s p rest hin
  rw [step_of_inputs_cons hin]
  refine ⟨fun hrst => ?_, fun hrst hvalid => ?_, fun hrst hvalid => ?_⟩
  · rw [evalInputs, if_pos hrst]; rfl
  · simp [evalInputs, hrst, hvalid]
  · simp [evalInputs, hrst, hvalid]

/-- Settles O7: each field of STATUS is read bit by bit; the outputs are functions of fields other than
the coming inputs. -/
theorem outputPortsShowTheState : Obligations.OutputPortsShowTheState := by
  intro s
  have bit (k : Nat) := statusWord_getLsbD s k
  refine ⟨bit 0, bit 1, bit 2, bit 3, ?errc, ?wp, ?reserved, rfl, rfl, fun inputs => ⟨rfl, rfl, rfl⟩⟩ <;>
    ext k hk <;> rw [BitVec.getElem_extractLsb', statusPort, statusWord_getLsbD]
  case errc =>
    simp (disch := omega) only [if_pos, if_neg]
    rw [Nat.add_sub_cancel_left, BitVec.getLsbD_eq_getElem]
  case wp =>
    simp (disch := omega) only [if_pos, if_neg]
    rw [Nat.add_sub_cancel_left, BitVec.getLsbD_eq_getElem]
  case reserved =>
    simp (disch := omega) only [if_neg]
    rw [BitVec.getElem_zero]

end Sys2Proof.Proofs

/-! SUPPORT. The encoder is the decoder's inverse, and the opcode map's row of each command. -/

namespace Sys2Proof

/-- A word is given by its two fields (R50). -/
theorem mkWord_eq_iff {op imm : Byte} {w : CmdWord} :
    mkWord op imm = w ↔ op = opField w ∧ imm = immField w := by
  constructor
  · rintro rfl; simp
  · rintro ⟨rfl, rfl⟩; simp

/-- A mask that keeps `op` whole acts on `imm` alone. -/
theorem and_mkWord_allOnes (w : CmdWord) (m : Byte) :
    w &&& mkWord (BitVec.allOnes 8) m = mkWord (opField w) (immField w &&& m) := by
  calc w &&& mkWord (BitVec.allOnes 8) m
      = mkWord (opField w) (immField w) &&& mkWord (BitVec.allOnes 8) m := by rw [mkWord_fields]
    _ = mkWord (opField w &&& BitVec.allOnes 8) (immField w &&& m) := BitVec.and_append
    _ = mkWord (opField w) (immField w &&& m) := by rw [BitVec.and_allOnes]

/-- A word that decodes to a command is that command's word: neither field is lost. -/
theorem encode_of_decode_eq_ok {w : CmdWord} {i : Instr} (h : decode w = .ok i) : encode i = w := by
  have fields {op : Byte} (hop : (opField w).toNat = op.toNat) : mkWord op (immField w) = w :=
    mkWord_eq_iff.2 ⟨(BitVec.eq_of_toNat_eq hop).symm, rfl⟩
  have formatN_fields {op : Byte} {j : Instr} (hop : (opField w).toNat = op.toNat)
      (hj : encode j = mkWord op 0#8) (h : formatN (opField w) (immField w) j = .ok i) :
      encode i = w := by
    obtain ⟨himm, rfl⟩ := formatN_eq_ok.1 h
    rw [hj, ← himm, fields hop]
  unfold decode at h
  split at h
  -- APUSH, RPUSH and RLDB; then the words with no opcode; the rest is format N.
  case h_2 hop | h_4 hop | h_5 hop => cases h; exact fields hop
  case h_17 => cases h
  all_goals exact formatN_fields ‹_› rfl h

/-- The decoder reads every command's word as that command. -/
theorem decode_encode (i : Instr) : decode (encode i) = .ok i := by
  cases i <;> simp [encode, decode, formatN]

theorem decode_eq_ok_iff {w : CmdWord} {i : Instr} : decode w = .ok i ↔ encode i = w :=
  ⟨encode_of_decode_eq_ok, fun h => h ▸ decode_encode i⟩

theorem immField_encode_of_operand {i : Instr} {b : Byte} (h : i.operand = some b) :
    immField (encode i) = b := by
  cases i <;> cases h <;> exact immField_mkWord _ _

theorem immField_encode_of_operand_none {i : Instr} (h : i.operand = none) :
    immField (encode i) = 0#8 := by
  cases i <;> cases h <;> exact immField_mkWord _ _

/-- A word is a command's when it has the command's `op`, its operand as `imm` in format I, and `imm` 0 in
format N (R51). -/
theorem encode_eq_iff {i : Instr} {w : CmdWord} :
    encode i = w ↔ opField (encode i) = opField w ∧ (i.operand = none → immField w = 0#8) ∧
      (i.operand = none ∨ i.operand = some (immField w)) := by
  constructor
  · rintro rfl
    exact ⟨rfl, immField_encode_of_operand_none, (Option.eq_none_or_eq_some _).imp_right
      (fun ⟨b, hb⟩ => by rw [immField_encode_of_operand hb, hb])⟩
  · rintro ⟨hop, hnone, hsome⟩
    rw [← mkWord_fields (encode i), hop, mkWord_eq_iff]
    refine ⟨rfl, ?_⟩
    rcases hsome with h | h
    · rw [immField_encode_of_operand_none h, hnone h]
    · exact immField_encode_of_operand h

/-- The row of R54's table that belongs to a command: its `op` to match, and its `imm` too in format N. -/
def Instr.row (i : Instr) : OpcodeRow where
  mnemonic := i.mnemonic
  pattern := mkWord (opField (encode i)) 0x00#8
  mask := mkWord (BitVec.allOnes 8) (i.operand.elim (BitVec.allOnes 8) fun _ => 0x00#8)

theorem row_mem_opcodeMap (i : Instr) : i.row ∈ opcodeMap := by
  cases i with
  | apush b =>
    rw [Instr.row, encode, opField_mkWord]
    change ⟨"APUSH", mkWord 0x11#8 0x00#8, mkWord (BitVec.allOnes 8) 0x00#8⟩ ∈ opcodeMap
    decide
  | rpush b =>
    rw [Instr.row, encode, opField_mkWord]
    change ⟨"RPUSH", mkWord 0x21#8 0x00#8, mkWord (BitVec.allOnes 8) 0x00#8⟩ ∈ opcodeMap
    decide
  | rldb b =>
    rw [Instr.row, encode, opField_mkWord]
    change ⟨"RLDB", mkWord 0x22#8 0x00#8, mkWord (BitVec.allOnes 8) 0x00#8⟩ ∈ opcodeMap
    decide
  | _ => decide

/-- No two rows of the opcode map have one mnemonic, so a row is found by its mnemonic. -/
theorem eq_row_of_mnemonic {r : OpcodeRow} {i : Instr} (hr : r ∈ opcodeMap)
    (h : r.mnemonic = i.mnemonic) : r = i.row :=
  List.inj_on_of_nodup_map (f := OpcodeRow.mnemonic) (by decide) hr (row_mem_opcodeMap i) h

/-- What match and mask ask of a word, in its fields (R54, R51). -/
theorem row_accepts_iff {i : Instr} {w : CmdWord} :
    i.row.accepts w = true ↔
      opField (encode i) = opField w ∧ (i.operand = none → immField w = 0#8) := by
  rw [OpcodeRow.accepts, beq_iff_eq, Instr.row, and_mkWord_allOnes, eq_comm, mkWord_eq_iff,
    opField_mkWord, immField_mkWord]
  cases i.operand with
  | none => simp only [Option.elim, forall_const, BitVec.and_allOnes, eq_comm (a := 0#8)]
  | some b => simp only [Option.elim, reduceCtorEq, false_imp_iff, BitVec.and_zero]

/-- The high nibble of a command's word is the number of its family (R54). -/
theorem extractLsb'_encode_family (i : Instr) : (encode i).extractLsb' 12 4 = Claims.Family i := by
  have nibble : (encode i).extractLsb' 12 4 = (opField (encode i)).extractLsb' 4 4 := by
    apply BitVec.eq_of_toNat_eq
    simp only [BitVec.extractLsb'_toNat, opField_toNat, Nat.shiftRight_eq_div_pow]
    omega
  rw [nibble]
  cases i <;> rw [encode, opField_mkWord] <;> rfl

/-! The command words by their two fields, as R55 lists them. -/

/-- The 16 opcodes. -/
def opcodes : List Byte :=
  [0x10#8, 0x11#8, 0x20#8, 0x21#8, 0x22#8, 0x30#8, 0x31#8, 0x32#8, 0x40#8, 0x41#8, 0x42#8, 0x43#8,
    0x44#8, 0x45#8, 0x46#8, 0x47#8]

/-- The opcodes of format I, whose `imm` is an operand (R51). -/
def formatIOpcodes : List Byte := [0x11#8, 0x21#8, 0x22#8]

theorem opField_encode_mem_opcodes (i : Instr) : opField (encode i) ∈ opcodes := by
  cases i <;> rw [encode, opField_mkWord] <;> decide

/-- Every format N opcode is the `op` of one of the commands without an operand. -/
theorem exists_formatN_command : ∀ op ∈ opcodes, op ∉ formatIOpcodes →
    ∃ p ∈ Machine.plainMnemonics, encode p.2 = mkWord op 0x00#8 := by decide

/-- A command whose `op` is none of format I's is of format N. -/
theorem operand_eq_none_of_formatN {i : Instr} (h : opField (encode i) ∉ formatIOpcodes) :
    i.operand = none := by
  cases i with
  | apush b | rpush b | rldb b => exact absurd (by rw [encode, opField_mkWord]; decide) h
  | _ => rfl

theorem exists_formatI_command {op : Byte} (imm : Byte) (h : op ∈ formatIOpcodes) :
    ∃ i, encode i = mkWord op imm := by
  simp only [formatIOpcodes, List.mem_cons, List.not_mem_nil, or_false] at h
  rcases h with rfl | rfl | rfl
  · exact ⟨.apush imm, rfl⟩
  · exact ⟨.rpush imm, rfl⟩
  · exact ⟨.rldb imm, rfl⟩

/-- The words of the 16 commands are those R55 does not reserve. -/
theorem exists_encode_eq_iff {w : CmdWord} :
    (∃ i, encode i = w) ↔
      opField w ∈ opcodes ∧ (opField w ∉ formatIOpcodes → immField w = 0x00#8) := by
  constructor
  · rintro ⟨i, rfl⟩
    exact ⟨opField_encode_mem_opcodes i,
      fun h => immField_encode_of_operand_none (operand_eq_none_of_formatN h)⟩
  · rintro ⟨hop, himm⟩
    rw [← mkWord_fields w]
    by_cases hI : opField w ∈ formatIOpcodes
    · exact exists_formatI_command _ hI
    · obtain ⟨p, -, hp⟩ := exists_formatN_command _ hop hI
      exact ⟨p.2, by rw [hp, himm hI]⟩

/-- A word is rejected exactly when R55 reserves it. -/
theorem decode_error_iff {w : CmdWord} :
    (∃ e, decode w = .error e) ↔
      opField w ∉ opcodes ∨ (opField w ∉ formatIOpcodes ∧ immField w ≠ 0x00#8) := by
  have rejected : (∃ e, decode w = .error e) ↔ ¬ ∃ i, decode w = .ok i := by
    cases decode w <;> simp
  simp only [rejected, decode_eq_ok_iff, exists_encode_eq_iff]
  tauto

end Sys2Proof

namespace Sys2Proof.Proofs

open Sys2Proof.Machine Sys2Proof.Claims

/-- Settles O9: the row with the command's mnemonic asks for the command's `op`, and for `imm` 0 in format
N; with the operand as `imm` in format I that is the command's word. -/
theorem opcodeMapIsTheDecoder : Obligations.OpcodeMapIsTheDecoder := by
  refine ⟨fun w i => ?_, fun w i h => ?_⟩
  · have accepted : (∃ row ∈ opcodeMap, row.accepts w = true ∧ row.mnemonic = i.mnemonic) ↔
        i.row.accepts w = true :=
      ⟨fun ⟨_, hr, hw, hm⟩ => eq_row_of_mnemonic hr hm ▸ hw,
        fun hw => ⟨i.row, row_mem_opcodeMap i, hw, rfl⟩⟩
    rw [decode_eq_ok_iff, encode_eq_iff, accepted, row_accepts_iff, and_assoc]
  · rw [← decode_eq_ok_iff.1 h, extractLsb'_encode_family]

end Sys2Proof.Proofs

/-! SUPPORT. The step of a presented word, and the code a faulting command leaves. -/

namespace Sys2Proof.Machine

open Sys2Proof.Claims

/-- A presented word is what the step accepts (R19). -/
theorem step_of_presentWord {s : State} {w : CmdWord} {rest : List PortInput}
    (h : s.inputs = presentWord w :: rest) : step s = acceptCommand w { s with inputs := rest } := by
  rw [step_of_inputs_cons h]
  rfl

theorem acceptCommand_frozen (w : CmdWord) {s : State} (h : s.err = true) :
    acceptCommand w s = .next s := if_pos h

theorem acceptCommand_of_decode_error {w : CmdWord} {s : State} {e : DecodeError}
    (h : s.err = false) (hw : decode w = .error e) :
    acceptCommand w s = .next (raiseFault .illegalCmd w s) := by
  simp [acceptCommand, h, hw]

theorem acceptCommand_of_decode_ok {w : CmdWord} {s : State} {i : Instr}
    (h : s.err = false) (hw : decode w = .ok i) : acceptCommand w s = exec i s := by
  simp [acceptCommand, h, hw]

/-- A command faults with its own word and changes only the fault registers, or leaves these as they are
(R52). -/
theorem exec_next_fault_or_keeps {i : Instr} {s t : State} (h : exec i s = .next t) :
    (∃ f, t = raiseFault f (encode i) s) ∨
      (t.err = s.err ∧ t.errc = s.errc ∧ t.errw = s.errw) := by
  rcases exec_next_cases h with hf | ⟨v, rfl, -⟩ | ⟨b, -, rfl⟩ | ⟨-, rfl⟩ | ⟨b, -, -, rfl⟩
  · exact .inl hf
  all_goals exact .inr ⟨rfl, rfl, rfl⟩

/-- RPUSH faults only at WP = 34, with the code of the fault table (R82). -/
theorem tableFault_rpush_of_fault {b : Byte} {s t : State} (h : exec (.rpush b) s = .next t)
    (hs : s.err = false) (ht : t.err = true) : TableFault (.rpush b) s.wp.toNat = some t.errc := by
  by_cases hw : s.wp.toNat = Config.bufLen
  · rw [exec, execRpush, if_pos hw] at h
    cases h
    exact if_pos hw
  · rw [exec, execRpush, if_neg hw] at h
    rcases appendBuffer_cases b s with ⟨-, e⟩ | ⟨-, e⟩ <;> rw [e] at h <;> cases h
    cases hs.symm.trans ht

/-- A command that faults leaves in ERRC the code its row of the fault table names (R121). -/
theorem tableFault_of_fault {i : Instr} {s t : State} (h : exec i s = .next t) (hs : s.err = false)
    (ht : t.err = true) : TableFault i s.wp.toNat = some t.errc := by
  by_cases hr : Reads i = true
  · rcases exec_next_of_reads hr h with ⟨f, htable, rfl⟩ | ⟨-, v, -, rfl⟩
    · exact htable
    · cases hs.symm.trans ht
  · cases i with
    | aclr | apush b | rclr => cases h; cases hs.symm.trans ht
    | rpush b => exact tableFault_rpush_of_fault h hs ht
    | _ => exact absurd rfl hr

/-- `IllegalCmd` is no command's own fault (R121). -/
theorem tableFault_ne_illegalCmd (i : Instr) (wp : Nat) :
    TableFault i wp ≠ some (faultNumber .illegalCmd) := by
  cases i <;> simp [TableFault, faultNumber]

theorem exec_ne_illegalCmd {i : Instr} {s : State} (w : CmdWord) (hs : s.err = false) :
    exec i s ≠ .next (raiseFault .illegalCmd w s) := fun h =>
  tableFault_ne_illegalCmd i s.wp.toNat (tableFault_of_fault h hs rfl)

end Sys2Proof.Machine

namespace Sys2Proof.Proofs

open Sys2Proof.Machine Sys2Proof.Claims

/-- Settles O4: one equation of `acceptCommand` per clause; a command's fault carries its own word. -/
theorem stepRunsTheDecodedCommand : Obligations.StepRunsTheDecodedCommand := by
  intro s w rest hin
  rw [step_of_presentWord hin]
  refine ⟨fun herr => acceptCommand_frozen w herr,
    fun e herr hw => acceptCommand_of_decode_error herr hw, fun i herr hw => ?_⟩
  have hexec : acceptCommand w { s with inputs := rest } = exec i { s with inputs := rest } :=
    acceptCommand_of_decode_ok herr hw
  refine ⟨hexec, fun t ht => ?_⟩
  rw [hexec] at ht
  obtain rfl := decode_eq_ok_iff.1 hw
  rcases exec_next_fault_or_keeps ht with ⟨f, rfl⟩ | ⟨hkeep, hcode, hword⟩
  · exact .inl rfl
  · exact .inr ⟨hkeep.trans herr, hcode, hword⟩

/-- Settles O6: a reserved word is one the decoder rejects; a command presented right after reset does
not raise `IllegalCmd`, so a word that raises it in every state is rejected. -/
theorem reservedWordsRaiseIllegalCmd : Obligations.ReservedWordsRaiseIllegalCmd := by
  intro w
  refine Iff.trans decode_error_iff.symm ⟨fun ⟨e, hw⟩ s rest herr hin => ?_, fun hraises => ?_⟩
  · rw [step_of_presentWord hin]
    exact acceptCommand_of_decode_error herr hw
  · cases hw : decode w with
    | error e => exact ⟨e, rfl⟩
    | ok i =>
      have hstep := hraises { State.reset with inputs := [presentWord w] } [] rfl rfl
      rw [step_of_presentWord rfl, acceptCommand_of_decode_ok rfl hw] at hstep
      exact absurd hstep (exec_ne_illegalCmd w rfl)

end Sys2Proof.Proofs

/-! SUPPORT. The weighted sum behind BE, and APUSH's update on words (R65, R70). -/

namespace Sys2Proof

/-- A word built from its fields by shift and or, the form the spec writes format I words in (R70). -/
theorem mkWord_eq_shiftLeft_or (op imm : Byte) :
    mkWord op imm = op.setWidth 16 <<< 8 ||| imm.setWidth 16 := by
  rw [← BitVec.setWidth_append_eq_shiftLeft_setWidth_or, BitVec.setWidth_eq, mkWord]

end Sys2Proof

namespace Sys2Proof.Machine

/-- The head of a sequence is the sum's first term; the tail's bytes, which count their weights from the
last byte, keep them. -/
theorem beValue_eq_sum (bs : List Byte) :
    beValue bs = ∑ i : Fin bs.length, bs[i].toNat * 256 ^ (bs.length - 1 - i.val) := by
  induction bs with
  | nil => rfl
  | cons b bs ih =>
    have weight (i : Fin bs.length) :
        (b :: bs).length - 1 - i.succ.val = bs.length - 1 - i.val := by
      rw [List.length_cons, Fin.val_succ]; omega
    rw [beValue, ih]
    refine Eq.trans ?_ (Fin.sum_univ_succ _).symm
    simp only [weight]
    rfl

theorem zeroFlag_toNat {w : Nat} (v : BitVec w) : zeroFlag v.toNat = decide (v = 0#w) := by
  rw [zeroFlag, decide_eq_decide, BitVec.toNat_eq, BitVec.toNat_zero]

theorem pushByte_toNat {w : Nat} (acc : BitVec w) (b : Byte) :
    (pushByte acc b).toNat = (acc.toNat * 256 + b.toNat) % 2 ^ w := BitVec.toNat_ofNat _ _

/-- APUSH writes the byte below ACC and drops what no longer fits above (R70). -/
theorem pushByte_eq_setWidth_append {w : Nat} (acc : BitVec w) (b : Byte) :
    pushByte acc b = (acc ++ b).setWidth w := by
  apply BitVec.eq_of_toNat_eq
  rw [pushByte_toNat, BitVec.toNat_setWidth, BitVec.toNat_append,
    ← Nat.shiftLeft_add_eq_or_of_lt b.isLt, Nat.shiftLeft_eq]

/-- The two forms R70 gives for the new ACC are one. -/
theorem pushByte_eq_shiftLeft_or {w : Nat} (acc : BitVec w) (b : Byte) :
    pushByte acc b = acc <<< 8 ||| b.setWidth w := by
  rw [pushByte_eq_setWidth_append, BitVec.setWidth_append_eq_shiftLeft_setWidth_or,
    BitVec.setWidth_eq]

/-- The spill is a test of ACC's top byte (R70). -/
theorem pushSpill_eq_topByte {w : Nat} (acc : BitVec w) :
    pushSpill acc = decide (acc.extractLsb' (w - 8) 8 ≠ 0#8) := by
  rw [pushSpill, ← Nat.shiftRight_eq_div_pow, ← BitVec.extractLsb'_toNat, decide_eq_decide,
    BitVec.toNat_ne, BitVec.toNat_zero]

theorem exec_aclr (s : State) : exec .aclr s = .next (writeAcc 0 s) := rfl

theorem exec_apush (b : Byte) (s : State) : exec (.apush b) s = .next (appendAcc b s) := rfl

theorem writeAcc_idem (v : Nat) (s : State) : writeAcc v (writeAcc v s) = writeAcc v s := rfl

/-- The value that reset leaves is that of the empty sequence (R69, R22). -/
theorem writeAcc_zero_reset : writeAcc 0 State.reset = State.reset := rfl

end Sys2Proof.Machine

namespace Sys2Proof.Proofs

open Sys2Proof.Machine Sys2Proof.Claims

/-- Settles O14, by induction on the bytes. -/
theorem bigEndianValueIsTheWeightedSum : Obligations.BigEndianValueIsTheWeightedSum := beValue_eq_sum

/-- Settles O18: the update is `appendAcc`, whose new ACC, spill and zero test are the forms of R70. -/
theorem apushAppendsOneByte : Obligations.ApushAppendsOneByte := by
  intro b
  have word : encode (.apush b) = 0x1100#16 ||| b.setWidth 16 := mkWord_eq_shiftLeft_or 0x11#8 b
  refine ⟨word, decode_eq_ok_iff.2 word, fun s =>
    ⟨appendAcc b s, exec_apush b s, rfl, ?acc, ?form, ?ovf, ?z⟩⟩
  case acc => exact pushByte_toNat s.acc b
  case form => exact pushByte_eq_shiftLeft_or s.acc b
  case ovf => rw [appendAcc_ovf, pushSpill_eq_topByte]
  case z => exact zeroFlag_toNat (pushByte s.acc b)

/-- Settles O17: ACLR is `writeAcc 0`, which is idempotent and writes what reset leaves. -/
theorem aclrClearsTheAccumulator : Obligations.AclrClearsTheAccumulator := by
  have word : encode .aclr = 0x1000#16 := mkWord_eq_shiftLeft_or 0x10#8 0x00#8
  refine ⟨word, decode_eq_ok_iff.2 word, exec_aclr, fun s t h => ?twice, ?reset⟩
  case twice =>
    rw [exec_aclr] at h
    cases h
    rw [exec_aclr, writeAcc_idem]
  case reset => rw [exec_aclr, writeAcc_zero_reset]

end Sys2Proof.Proofs

/-! SUPPORT. The R family, one equation per outcome: RCLR, RPUSH at and below 34 bytes, RLDB of an unwritten
and of a written byte (R81 to R83). -/

namespace Sys2Proof

theorem encode_rclr : encode .rclr = 0x2000#16 := mkWord_eq_shiftLeft_or 0x20#8 0x00#8

theorem encode_rpush (b : Byte) : encode (.rpush b) = 0x2100#16 ||| b.setWidth 16 :=
  mkWord_eq_shiftLeft_or 0x21#8 b

theorem encode_rldb (k : Byte) : encode (.rldb k) = 0x2200#16 ||| k.setWidth 16 :=
  mkWord_eq_shiftLeft_or 0x22#8 k

end Sys2Proof

namespace Sys2Proof.Machine

theorem exec_rclr (s : State) : exec .rclr s = .next (clearBuffer s) := rfl

theorem exec_rpush_of_full (b : Byte) {s : State} (h : s.wp.toNat = Config.bufLen) :
    exec (.rpush b) s = .next (raiseFault .bufFull (encode (.rpush b)) s) := if_pos h

theorem exec_rpush_of_lt (b : Byte) {s : State} (h : s.wp.toNat < Config.bufLen) :
    exec (.rpush b) s =
      .next { s with buf := insertCell s.buf s.wp.toNat b, wp := s.wp + 1#6 } := by
  have happend : exec (.rpush b) s = appendBuffer b s := if_neg (Nat.ne_of_lt h)
  rcases appendBuffer_cases b s with ⟨-, e⟩ | ⟨hle, -⟩
  · rw [happend, e]
  · exact absurd h (Nat.not_lt.2 hle)

theorem exec_rldb_of_le {k : Byte} {s : State} (h : s.wp.toNat ≤ k.toNat) :
    exec (.rldb k) s = .next (raiseFault .bufUnwritten (encode (.rldb k)) s) := if_pos h

theorem exec_rldb_of_readByte {k b : Byte} {s : State} (h : k.toNat < s.wp.toNat)
    (hb : readByte s.buf k.toNat = .ok b) : exec (.rldb k) s = .next (writeAcc b.toNat s) := by
  simp only [exec, execRldb, loadByte, if_neg (Nat.not_le.2 h), hb]

/-- Writing a byte to ACC zero-extends it and tests it for zero (R16, R83). -/
theorem writeAcc_byte (b : Byte) (s : State) :
    writeAcc b.toNat s = { s with acc := b.setWidth 64, ovf := false, z := decide (b = 0#8) } := by
  rw [writeAcc, zeroFlag_toNat, BitVec.ofNat_toNat]

/-- With the invariant a buffer at WP = 0 lists no byte, so there is nothing to clear. -/
theorem clearBuffer_of_wp_eq_zero {s : State} (hinv : BufferInv s) (hwp : s.wp = 0#6) :
    clearBuffer s = s := by
  obtain ⟨-, -, hkeys⟩ := hinv
  have hbuf : s.buf = [] := by simpa [hwp] using hkeys
  rw [clearBuffer, ← hbuf, ← hwp]

/-- WP does not wrap where RPUSH moves it on (R12). -/
theorem wp_add_one_toNat {p : WpWord} (h : p.toNat < Config.bufLen) :
    (p + 1#6).toNat = p.toNat + 1 := by
  have : p.toNat < 34 := h
  rw [BitVec.toNat_add, BitVec.toNat_ofNat]
  omega

theorem holds_iff {bs : List Byte} {s : State} :
    Holds bs s ↔
      s.wp.toNat = bs.length ∧ ∀ (i : Nat) (h : i < bs.length), readByte s.buf i = .ok bs[i] := by
  rw [Holds, readBytes_eq_ok]
  simp only [true_and, Nat.zero_add]

/-- A held sequence gains the byte stored at WP at its end, in a state that reads otherwise the same. -/
theorem holds_append {bs : List Byte} {b : Byte} {s t : State} (h : Holds bs s)
    (hwp : t.wp.toNat = s.wp.toNat + 1) (hself : readByte t.buf s.wp.toNat = .ok b)
    (hother : ∀ a, a ≠ s.wp.toNat → readByte t.buf a = readByte s.buf a) :
    Holds (bs ++ [b]) t := by
  obtain ⟨hlen, hread⟩ := holds_iff.1 h
  refine holds_iff.2 ⟨by rw [hwp, hlen, List.length_append, List.length_singleton], fun i hi => ?_⟩
  rcases Nat.lt_or_ge i bs.length with hlt | hge
  · rw [hother i (by omega), hread i hlt, List.getElem_append_left hlt]
  · obtain rfl : i = bs.length := by
      rw [List.length_append, List.length_singleton] at hi; omega
    rw [List.getElem_concat_length rfl, ← hlen, hself]

end Sys2Proof.Machine

namespace Sys2Proof.Proofs

open Sys2Proof.Machine Sys2Proof.Claims

/-- Settles O23: RCLR is `clearBuffer`, whose empty buffer has no readable byte and whose WP is at or below
every index. -/
theorem rclrEmptiesTheBuffer : Obligations.RclrEmptiesTheBuffer := by
  refine ⟨encode_rclr, decode_eq_ok_iff.2 encode_rclr, fun s =>
    ⟨clearBuffer s, exec_rclr s, rfl, readByte_nil_ne_ok, fun k => ?rldb, ?status⟩,
    fun s ⟨hbuf, _⟩ hwp => ?unchanged⟩
  case rldb =>
    have hle : (clearBuffer s).wp.toNat ≤ k.toNat := Nat.zero_le _
    rw [exec_rldb_of_le hle, encode_rldb]
    rfl
  case status =>
    obtain ⟨-, -, -, -, -, hwp, -⟩ := outputPortsShowTheState (clearBuffer s)
    exact hwp
  case unchanged => rw [exec_rclr, clearBuffer_of_wp_eq_zero hbuf hwp]

/-- Settles O24: below 34 the step writes one byte at WP, so reads change at that index alone. -/
theorem rpushAppendsToTheBuffer : Obligations.RpushAppendsToTheBuffer := by
  intro b s
  refine ⟨encode_rpush b, decode_eq_ok_iff.2 (encode_rpush b), fun hfull => ?full, fun hlt => ?room⟩
  case full =>
    rw [exec_rpush_of_full b hfull, encode_rpush]
    rfl
  case room =>
    have hwp := wp_add_one_toNat hlt
    have hwrite := writeByte_ok (m := s.buf) b hlt
    have hself := readByte_writeByte_self hwrite
    have hother := fun a (hne : a ≠ s.wp.toNat) => readByte_writeByte_other hwrite hne
    exact ⟨_, exec_rpush_of_lt b hlt, rfl, hwp, hself, hother,
      fun bs hbs => holds_append hbs hwp hself hother⟩

/-- Settles O25: the two outcomes of RLDB by the index, and the invariant's bound and bytes. -/
theorem rldbLoadsOneWrittenByte : Obligations.RldbLoadsOneWrittenByte := by
  intro k s
  refine ⟨encode_rldb k, decode_eq_ok_iff.2 (encode_rldb k), fun hle => ?unwritten,
    fun b hlt hb => ?written, fun ⟨hbuf, _⟩ hlt => readByte_of_bufferInv hbuf hlt,
    fun ⟨⟨_, hbound, _⟩, _⟩ hk => hbound.trans hk⟩
  case unwritten =>
    rw [exec_rldb_of_le hle, encode_rldb]
    rfl
  case written => rw [exec_rldb_of_readByte hlt hb, writeAcc_byte]

end Sys2Proof.Proofs

/-! SUPPORT. A slice is a shift and a mask of the whole sequence's BE (R36), and the rule of an H or X command
from its recipe: what a held record's bytes make of it, and the slice that is (R90, R101). -/

namespace Sys2Proof.Machine

/-- A byte put in front of a sequence stands above the sequence's own bits (R65). -/
theorem beValue_cons_testBit (b : Byte) (bs : List Byte) (k : Nat) :
    (beValue (b :: bs)).testBit k =
      if k < 8 * bs.length then (beValue bs).testBit k else b.toNat.testBit (k - 8 * bs.length) := by
  have hpow : 256 ^ bs.length = 2 ^ (8 * bs.length) := pow_mul 2 8 bs.length ▸ rfl
  have hlt : beValue bs < 2 ^ (8 * bs.length) := hpow ▸ beValue_lt bs
  rw [beValue, hpow, Nat.mul_comm, Nat.testBit_two_pow_mul_add _ hlt]

/-- Stream position q counts the bits of BE from the top (R36). -/
theorem streamBit_eq_testBit {bs : List Byte} {q : Nat} (h : q < 8 * bs.length) :
    streamBit bs q = some ((beValue bs).testBit (8 * bs.length - 1 - q)).toNat := by
  induction bs generalizing q with
  | nil => exact absurd h (Nat.not_lt_zero q)
  | cons b bs ih =>
    rw [List.length_cons] at h ⊢
    rw [beValue_cons_testBit]
    rcases Nat.lt_or_ge q 8 with hq | hq
    · have hbyte : q / 8 = 0 := Nat.div_eq_of_lt hq
      have hbit : 8 * (bs.length + 1) - 1 - q - 8 * bs.length = 7 - q % 8 := by omega
      rw [if_neg (by omega), hbit, Nat.toNat_testBit, streamBit, hbyte]
      rfl
    · have htail : streamBit (b :: bs) q = streamBit bs (q - 8) := by
        have hbyte : q / 8 = (q - 8) / 8 + 1 := by omega
        have hbit : q % 8 = (q - 8) % 8 := by omega
        rw [streamBit, hbyte, hbit, List.getElem?_cons_succ, streamBit]
      have hpos : 8 * (bs.length + 1) - 1 - q = 8 * bs.length - 1 - (q - 8) := by omega
      rw [htail, ih (by omega), hpos, if_pos (by omega)]

/-- A slice is BE of the whole sequence, shifted right by the bits after the slice, modulo 2^n. -/
theorem slice_eq_beValue {bs : List Byte} {p n : Nat} (h : p + n ≤ 8 * bs.length) :
    slice bs p n = some (beValue bs / 2 ^ (8 * bs.length - (p + n)) % 2 ^ n) := by
  induction n generalizing p with
  | zero => rw [slice, pow_zero, Nat.mod_one]
  | succ n ih =>
    have hpos : 8 * bs.length - 1 - p = 8 * bs.length - (p + (n + 1)) + n := by omega
    rw [slice, streamBit_eq_testBit (by omega), ih (by omega), hpos, Nat.toNat_testBit, pow_add,
      ← Nat.div_div_eq_div_mul, Nat.add_right_comm p 1 n, Nat.add_assoc p n 1]
    simp only [Nat.mod_pow_succ, Nat.mul_comm, Nat.add_comm]

theorem streamBit_lt {bs : List Byte} {q v : Nat} (h : streamBit bs q = some v) : v < 2 := by
  obtain ⟨b, -, rfl⟩ := Option.map_eq_some_iff.1 h
  exact Nat.mod_lt _ (by decide)

theorem slice_lt {bs : List Byte} {p n v : Nat} (h : slice bs p n = some v) : v < 2 ^ n := by
  induction n generalizing p v with
  | zero => cases h; decide
  | succ n ih =>
    rw [slice] at h
    split at h
    case h_1 b low hbit hlow =>
      cases h
      have hb := streamBit_lt hbit
      calc b * 2 ^ n + low
          < b * 2 ^ n + 2 ^ n := Nat.add_lt_add_left (ih hlow) _
        _ = (b + 1) * 2 ^ n := by rw [Nat.succ_mul]
        _ ≤ 2 * 2 ^ n := Nat.mul_le_mul_right _ hb
        _ = 2 ^ (n + 1) := (pow_succ' 2 n).symm
    case h_2 => cases h

/-- Consecutive bytes of a held record read as BE of that part of it (R30, R33). -/
theorem memRead_of_holds {len : Nat} {r : Vector Byte len} {s : State} (h : Holds r.toList s)
    {a n : Nat} (hn : a + n ≤ len) :
    memRead s.buf a n = .ok (beValue ((r.toList.drop a).take n)) :=
  memRead_eq_ok.2 ⟨_, readBytes_of_readBytes h.2 (by rwa [Vector.length_toList]), rfl⟩

open Sys2Proof.Claims

/-- A command of the shape `extractField` obeys its rule when its recipe, on every held record, gives the
value the rule states and that value is the slice the rule names. -/
theorem fieldRule_of_extractField {i : Instr} {word : CmdWord} {len : Nat} {f : FaultCode}
    {recipe : Memory → Except Fault Nat} {value : Vector Byte len → Nat} {p n : Nat}
    (hword : encode i = word)
    (hexec : ∀ s, exec i s = extractField len f (encode i) recipe s)
    (hrecipe : ∀ (s : State) (r : Vector Byte len), Holds r.toList s → recipe s.buf = .ok (value r))
    (hslice : ∀ r : Vector Byte len, slice r.toList p n = some (value r)) :
    FieldRule i word len (faultNumber f) value p n := by
  refine ⟨hword, decode_eq_ok_iff.2 hword, fun s hwp => ?mismatch, fun s r hr => ⟨?held, hslice r,
    slice_lt (hslice r)⟩⟩
  case mismatch =>
    rw [hexec, extractField, if_neg hwp, hword]
    rfl
  case held =>
    rw [hexec, extractField, if_pos (wp_of_holds hr), hrecipe s r hr]
    rfl

end Sys2Proof.Machine

/-! SUPPORT. The header's four bytes and the H recipes on a held header (R91 to R93). -/

namespace Sys2Proof.Machine

theorem header_toList (h : Vector Byte 4) : h.toList = [h[0], h[1], h[2], h[3]] := by
  obtain ⟨⟨bs⟩, hlen⟩ := h
  match bs, hlen with
  | [_, _, _, _], _ => rfl

theorem beValue_three (a b c : Byte) :
    beValue [a, b, c] = a.toNat * 65536 + b.toNat * 256 + c.toNat := by
  simp [beValue, Nat.add_assoc]

/-- The header as one number: its first byte stands above the 24 bits of the other three. -/
theorem beValue_header (h : Vector Byte 4) :
    beValue h.toList = h[0].toNat * 256 ^ 3 + beValue [h[1], h[2], h[3]] := by
  rw [header_toList]
  rfl

/-- The header without its last 24 bits is its first byte. -/
theorem beValue_header_div (h : Vector Byte 4) : beValue h.toList / 2 ^ 24 = h[0].toNat := by
  have hlow : beValue [h[1], h[2], h[3]] < 256 ^ 3 := beValue_lt _
  rw [beValue_header]
  omega

theorem slice_header {h : Vector Byte 4} {p n : Nat} (hpn : p + n ≤ 32) :
    slice h.toList p n = some (beValue h.toList / 2 ^ (32 - (p + n)) % 2 ^ n) := by
  have hlen : 8 * h.toList.length = 32 := by rw [Vector.length_toList]
  rw [slice_eq_beValue (hlen.symm ▸ hpn), hlen]

theorem hlastValue_of_holds {h : Vector Byte 4} {s : State} (hh : Holds h.toList s) :
    hlastValue s.buf = .ok (h[0].toNat >>> 7) := by
  rw [hlastValue, readByte_of_holds hh 0 (by decide)]
  rfl

theorem htypeValue_of_holds {h : Vector Byte 4} {s : State} (hh : Holds h.toList s) :
    htypeValue s.buf = .ok (h[0].toNat &&& 0x7F) := by
  rw [htypeValue, readByte_of_holds hh 0 (by decide)]
  rfl

theorem hlenValue_of_holds {h : Vector Byte 4} {s : State} (hh : Holds h.toList s) :
    hlenValue s.buf = .ok (h[1].toNat * 65536 + h[2].toNat * 256 + h[3].toNat) := by
  rw [hlenValue, memRead_of_holds hh (by decide), header_toList, ← beValue_three]
  rfl

theorem slice_lastBlockFlag (h : Vector Byte 4) :
    slice h.toList 0 1 = some (h[0].toNat >>> 7) := by
  have hbyte := beValue_header_div h
  have hlt := h[0].isLt
  rw [slice_header (by decide), Nat.shiftRight_eq_div_pow]
  congr 1
  omega

theorem slice_blockType (h : Vector Byte 4) :
    slice h.toList 1 7 = some (h[0].toNat &&& 0x7F) := by
  have hmask : h[0].toNat &&& 0x7F = h[0].toNat % 2 ^ 7 := Nat.and_two_pow_sub_one_eq_mod _ 7
  rw [slice_header (by decide), hmask, ← beValue_header_div]

theorem slice_blockLength (h : Vector Byte 4) :
    slice h.toList 8 24 = some (h[1].toNat * 65536 + h[2].toNat * 256 + h[3].toNat) := by
  have hlow : beValue [h[1], h[2], h[3]] < 256 ^ 3 := beValue_lt _
  rw [slice_header (by decide), beValue_header, ← beValue_three]
  congr 1
  omega

/-- The flag is the first byte's top bit (R91). -/
theorem byte_shiftRight_seven (b : Byte) : b.toNat >>> 7 = if b.getLsbD 7 then 1 else 0 := by
  have hlt : b.toNat >>> 7 < 2 := by rw [Nat.shiftRight_eq_div_pow]; have := b.isLt; omega
  have hbit : (b.getLsbD 7).toNat = b.toNat >>> 7 := by
    rw [BitVec.getLsbD, Nat.toNat_testBit, ← Nat.shiftRight_eq_div_pow, Nat.mod_eq_of_lt hlt]
  rw [← hbit, Bool.toNat, cond_eq_ite]

end Sys2Proof.Machine

namespace Sys2Proof.Proofs

open Sys2Proof.Machine Sys2Proof.Claims

/-- Settles O31: the flag is the header's first bit. -/
theorem hlastExtractsTheLastBlockFlag : Obligations.HlastExtractsTheLastBlockFlag :=
  ⟨fieldRule_of_extractField (f := .hdrLenMismatch) rfl (fun _ => rfl) (fun _ _ => hlastValue_of_holds)
    slice_lastBlockFlag, byte_shiftRight_seven⟩

/-- Settles O32: the type is the seven bits after the flag. -/
theorem htypeExtractsTheBlockType : Obligations.HtypeExtractsTheBlockType :=
  fieldRule_of_extractField (f := .hdrLenMismatch) rfl (fun _ => rfl) (fun _ _ => htypeValue_of_holds)
    slice_blockType

/-- Settles O33: the length is the header's last 24 bits, and the sum is BE of their bytes. -/
theorem hlenExtractsTheBlockLength : Obligations.HlenExtractsTheBlockLength :=
  ⟨fieldRule_of_extractField (f := .hdrLenMismatch) rfl (fun _ => rfl) (fun _ _ => hlenValue_of_holds)
    slice_blockLength, fun h => beValue_three h[1] h[2] h[3]⟩

end Sys2Proof.Proofs

/-! SUPPORT. Slices inside a run of a sequence's bytes, and the rule of a command that reads a run whole (R33,
R36). -/

namespace Sys2Proof.Machine

open Sys2Proof.Claims

theorem length_window {bs : List Byte} {a m : Nat} (h : a + m ≤ bs.length) :
    ((bs.drop a).take m).length = m := by
  rw [List.length_take_of_le (by rw [List.length_drop]; omega)]

theorem streamBit_window {bs : List Byte} {a m q : Nat} (hq : q < 8 * m) :
    streamBit ((bs.drop a).take m) q = streamBit bs (8 * a + q) := by
  have hbyte : (8 * a + q) / 8 = a + q / 8 := by omega
  have hbit : (8 * a + q) % 8 = q % 8 := by omega
  rw [streamBit, streamBit, hbyte, hbit, List.getElem?_take_of_lt (by omega), List.getElem?_drop]

theorem slice_window {bs : List Byte} {a m q n : Nat} (hq : q + n ≤ 8 * m) :
    slice ((bs.drop a).take m) q n = slice bs (8 * a + q) n := by
  induction n generalizing q with
  | zero => rfl
  | succ n ih => rw [slice, slice, streamBit_window (by omega), ih (by omega), Nat.add_assoc]

/-- A slice inside the m bytes from index a is a shift and a mask of those bytes' BE alone: q of their bits
stand before it and k after it. -/
theorem slice_eq_beValue_window {bs : List Byte} {a m q n k : Nat} (ham : a + m ≤ bs.length)
    (hk : q + n + k = 8 * m) :
    slice bs (8 * a + q) n = some (beValue ((bs.drop a).take m) / 2 ^ k % 2 ^ n) := by
  have hlen := length_window ham
  have hq : q + n ≤ 8 * m := Nat.le.intro hk
  rw [← slice_window hq, slice_eq_beValue (by rwa [hlen]), hlen, ← hk, Nat.add_sub_cancel_left]

/-- Whole bytes are the slice at eight times their index (R36). -/
theorem slice_bytes {bs : List Byte} {a n : Nat} (han : a + n ≤ bs.length) :
    slice bs (8 * a) (8 * n) = some (beValue ((bs.drop a).take n)) := by
  have hlt : beValue ((bs.drop a).take n) < 2 ^ (8 * n) := by
    rw [pow_mul]
    exact (beValue_lt _).trans_eq (congrArg _ (length_window han))
  have hslice := slice_eq_beValue_window (q := 0) (k := 0) han (Nat.zero_add (8 * n))
  rwa [Nat.add_zero, pow_zero, Nat.div_one, Nat.mod_eq_of_lt hlt] at hslice

/-- A command whose recipe is `MemRead(a, n)` obeys its rule when the value the rule states is BE of those
bytes. -/
theorem fieldRule_of_memRead {i : Instr} {word : CmdWord} {len : Nat} {f : FaultCode} (a n : Nat)
    {value : Vector Byte len → Nat} (hword : encode i = word)
    (hexec : ∀ s, exec i s = extractField len f (encode i) (memRead · a n) s) (han : a + n ≤ len)
    (hvalue : ∀ r : Vector Byte len, beValue ((r.toList.drop a).take n) = value r) :
    FieldRule i word len (faultNumber f) value (8 * a) (8 * n) :=
  fieldRule_of_extractField hword hexec (fun _ r hr => hvalue r ▸ memRead_of_holds hr han)
    (fun r => hvalue r ▸ slice_bytes (by rwa [Vector.length_toList]))

end Sys2Proof.Machine

/-! SUPPORT. The bytes of a record that an X command reads, and the recipes of XRATE and XTOTAL on a held
record (R102 to R106, R109). -/

namespace Sys2Proof.Machine

/-- A run of a record's bytes begins with the byte at its index. -/
theorem take_succ_drop_toList {len : Nat} (r : Vector Byte len) {a : Nat} (n : Nat) (h : a < len) :
    (r.toList.drop a).take (n + 1) = r[a] :: (r.toList.drop (a + 1)).take n := by
  rw [List.drop_eq_getElem_cons (by rwa [Vector.length_toList]), List.take_succ_cons,
    Vector.getElem_toList]

theorem take_two_drop_toList {len : Nat} (r : Vector Byte len) {a : Nat} (h : a + 2 ≤ len) :
    (r.toList.drop a).take 2 = [r[a], r[a + 1]] := by
  rw [take_succ_drop_toList r 1, take_succ_drop_toList r 0, List.take_zero]

theorem take_three_drop_toList {len : Nat} (r : Vector Byte len) {a : Nat} (h : a + 3 ≤ len) :
    (r.toList.drop a).take 3 = [r[a], r[a + 1], r[a + 2]] := by
  rw [take_succ_drop_toList r 2, take_two_drop_toList r (by omega)]

theorem take_four_drop_toList {len : Nat} (r : Vector Byte len) {a : Nat} (h : a + 4 ≤ len) :
    (r.toList.drop a).take 4 = [r[a], r[a + 1], r[a + 2], r[a + 3]] := by
  rw [take_succ_drop_toList r 3, take_three_drop_toList r (by omega)]

theorem take_five_drop_toList {len : Nat} (r : Vector Byte len) {a : Nat} (h : a + 5 ≤ len) :
    (r.toList.drop a).take 5 = [r[a], r[a + 1], r[a + 2], r[a + 3], r[a + 4]] := by
  rw [take_succ_drop_toList r 4, take_four_drop_toList r (by omega)]

theorem beValue_two (a b : Byte) : beValue [a, b] = a.toNat * 256 + b.toNat := by
  simp [beValue]

theorem beValue_five (a b c d e : Byte) :
    beValue [a, b, c, d, e] =
      a.toNat * 2 ^ 32 + b.toNat * 2 ^ 24 + c.toNat * 2 ^ 16 + d.toNat * 2 ^ 8 + e.toNat := by
  simp [beValue, Nat.add_assoc]

/-- Shifting three bytes right by four drops the last byte's low nibble and leaves the rest (R106). -/
theorem beValue_three_shiftRight_four (a b c : Byte) :
    beValue [a, b, c] >>> 4 = a.toNat * 4096 + b.toNat * 16 + (c.toNat >>> 4) := by
  rw [beValue_three, Nat.shiftRight_eq_div_pow, Nat.shiftRight_eq_div_pow]
  omega

theorem toNat_and_lowNibble (b : Byte) : (b &&& 0x0F#8).toNat = b.toNat % 2 ^ 4 := by
  rw [BitVec.toNat_and]
  exact Nat.and_two_pow_sub_one_eq_mod _ 4

/-- Masking the first byte to its low nibble drops the four bits above the other bytes' (R109). -/
theorem beValue_cons_and_lowNibble (b : Byte) (bs : List Byte) :
    beValue ((b &&& 0x0F#8) :: bs) = beValue (b :: bs) % 2 ^ (8 * bs.length + 4) := by
  have hpow : 256 ^ bs.length = 2 ^ (8 * bs.length) := (pow_mul 2 8 bs.length).symm
  have hlt : beValue bs < 2 ^ (8 * bs.length) := hpow ▸ beValue_lt bs
  rw [beValue, beValue, hpow, toNat_and_lowNibble, pow_add, Nat.mod_mul, Nat.mul_add_mod_self_right,
    Nat.mod_eq_of_lt hlt, Nat.mul_comm b.toNat, Nat.mul_add_div (Nat.two_pow_pos _),
    Nat.div_eq_of_lt hlt, Nat.add_zero, Nat.add_comm, Nat.mul_comm]

theorem xrateValue_of_holds {r : Vector Byte 34} {s : State} (hr : Holds r.toList s) :
    xrateValue s.buf = .ok (beValue [r[10], r[11], r[12]] >>> 4) := by
  rw [xrateValue, memRead_of_holds hr (by decide), take_three_drop_toList r (by decide)]
  rfl

theorem xtotalValue_of_holds {r : Vector Byte 34} {s : State} (hr : Holds r.toList s) :
    xtotalValue s.buf = .ok (beValue [r[13] &&& 0x0F#8, r[14], r[15], r[16], r[17]]) := by
  rw [xtotalValue, readByte_of_holds hr 13 (by decide), readBytes_of_readBytes hr.2 (by simp),
    take_four_drop_toList r (by decide)]
  rfl

theorem slice_sampleRate (r : Vector Byte 34) :
    slice r.toList 80 20 = some (beValue [r[10], r[11], r[12]] >>> 4) := by
  have hbytes : beValue [r[10], r[11], r[12]] < 256 ^ 3 := beValue_lt _
  have hlt : beValue [r[10], r[11], r[12]] / 2 ^ 4 < 2 ^ 20 := by omega
  have hslice := slice_eq_beValue_window (bs := r.toList) (a := 10) (m := 3) (q := 0) (n := 20)
    (k := 4) (by simp) rfl
  rw [take_three_drop_toList r (by decide), Nat.mod_eq_of_lt hlt,
    ← Nat.shiftRight_eq_div_pow] at hslice
  exact hslice

theorem slice_totalSamples (r : Vector Byte 34) :
    slice r.toList 108 36 = some (beValue [r[13] &&& 0x0F#8, r[14], r[15], r[16], r[17]]) := by
  have hslice := slice_eq_beValue_window (bs := r.toList) (a := 13) (m := 5) (q := 4) (n := 36)
    (k := 0) (by simp) rfl
  rw [take_five_drop_toList r (by decide), pow_zero, Nat.div_one] at hslice
  rw [beValue_cons_and_lowNibble]
  exact hslice

end Sys2Proof.Machine

namespace Sys2Proof.Proofs

open Sys2Proof.Machine Sys2Proof.Claims

/-- Settles O36: XMINBLK reads bytes 0 and 1. -/
theorem xminblkExtractsTheMinBlockSize : Obligations.XminblkExtractsTheMinBlockSize :=
  fieldRule_of_memRead (f := .recLenMismatch) 0 2 rfl (fun _ => rfl) (by decide) fun r => by
    rw [take_two_drop_toList r (by decide), beValue_two]

/-- Settles O37: XMAXBLK reads bytes 2 and 3. -/
theorem xmaxblkExtractsTheMaxBlockSize : Obligations.XmaxblkExtractsTheMaxBlockSize :=
  fieldRule_of_memRead (f := .recLenMismatch) 2 2 rfl (fun _ => rfl) (by decide) fun r => by
    rw [take_two_drop_toList r (by decide), beValue_two]

/-- Settles O38: XMINFRM reads bytes 4 to 6. -/
theorem xminfrmExtractsTheMinFrameSize : Obligations.XminfrmExtractsTheMinFrameSize :=
  fieldRule_of_memRead (f := .recLenMismatch) 4 3 rfl (fun _ => rfl) (by decide) fun r => by
    rw [take_three_drop_toList r (by decide), beValue_three]

/-- Settles O39: XMAXFRM reads bytes 7 to 9. -/
theorem xmaxfrmExtractsTheMaxFrameSize : Obligations.XmaxfrmExtractsTheMaxFrameSize :=
  fieldRule_of_memRead (f := .recLenMismatch) 7 3 rfl (fun _ => rfl) (by decide) fun r => by
    rw [take_three_drop_toList r (by decide), beValue_three]

/-- Settles O40: the rate is the first 20 of the bits of bytes 10 to 12. -/
theorem xrateExtractsTheSampleRate : Obligations.XrateExtractsTheSampleRate :=
  ⟨fieldRule_of_extractField (f := .recLenMismatch) rfl (fun _ => rfl) (fun _ _ => xrateValue_of_holds)
    slice_sampleRate,
  fun r => ⟨Nat.shiftRight_eq_div_pow _ 4, beValue_three_shiftRight_four r[10] r[11] r[12]⟩⟩

/-- Settles O43: the count is the last 36 of the bits of bytes 13 to 17. -/
theorem xtotalExtractsTheTotalSamples : Obligations.XtotalExtractsTheTotalSamples :=
  ⟨fieldRule_of_extractField (f := .recLenMismatch) rfl (fun _ => rfl) (fun _ _ => xtotalValue_of_holds)
    slice_totalSamples,
  fun r => ⟨beValue_cons_and_lowNibble r[13] [r[14], r[15], r[16], r[17]],
    beValue_five (r[13] &&& 0x0F#8) r[14] r[15] r[16] r[17]⟩⟩

end Sys2Proof.Proofs

/-! SUPPORT. A frozen unit's step and run (R125). -/

namespace Sys2Proof.Machine

/-- A step that goes on hands the rest of the run to its next state. -/
theorem runSteps_succ_of_next {s t : State} (n : Nat) (h : step s = .next t) :
    runSteps (n + 1) s = runSteps n t := by
  rw [runSteps, h]

/-- Without `rst` a frozen unit ignores its inputs, whether they present a command or not. -/
theorem evalInputs_frozen {p : PortInput} {s : State} (herr : s.err = true) (hrst : p.rst = false) :
    evalInputs p s = .next s := by
  rcases evalInputs_cases p s with ⟨h, -⟩ | ⟨-, -, e⟩ | ⟨-, -, e⟩
  · cases hrst.symm.trans h
  · rw [e, acceptCommand_frozen p.cmd herr]
  · exact e

/-- A frozen unit's run only takes its inputs off the list; past the list's end there is none to take. -/
theorem runSteps_frozen {n : Nat} {s : State} (herr : s.err = true)
    (hrst : ∀ p ∈ s.inputs.take n, p.rst = false) :
    runSteps n s = .next { s with inputs := s.inputs.drop n } := by
  induction n generalizing s with
  | zero => rfl
  | succ n ih =>
    cases hin : s.inputs with
    | nil =>
      rw [runSteps_succ_of_next n (step_of_inputs_nil hin), ih herr (by simp [hin]), hin, List.drop_nil,
        List.drop_nil]
    | cons p rest =>
      rw [hin, List.take_succ_cons, List.forall_mem_cons] at hrst
      obtain ⟨hp, hrest⟩ := hrst
      have hstep : step s = .next { s with inputs := rest } :=
        (step_of_inputs_cons hin).trans (evalInputs_frozen herr hp)
      rw [runSteps_succ_of_next n hstep, ih (s := { s with inputs := rest }) herr hrest, List.drop_succ_cons]

end Sys2Proof.Machine

namespace Sys2Proof.Proofs

open Sys2Proof.Machine Sys2Proof.Claims

/-- Settles O5: the outputs do not show the coming inputs, all that a frozen run changes; a run that ends
with ERR = 0 is therefore not a frozen one. -/
theorem frozenUnitIgnoresEveryCommand : Obligations.FrozenUnitIgnoresEveryCommand := by
  refine ⟨fun n s herr hrst => ⟨runSteps_frozen herr hrst, fun t ht => ?outputs⟩,
    fun n s t herr ht hclear => ?reset⟩
  case outputs =>
    rw [runSteps_frozen herr hrst] at ht
    cases ht
    exact ⟨rfl, rfl, rfl⟩
  case reset =>
    by_contra hnone
    have hrst : ∀ p ∈ s.inputs.take n, p.rst = false := fun p hp =>
      Bool.eq_false_iff.2 fun h => hnone ⟨p, hp, h⟩
    rw [runSteps_frozen herr hrst] at ht
    cases ht
    cases herr.symm.trans hclear

end Sys2Proof.Proofs

/-! SUPPORT. The fault table against the commands' rules: what a completed rule says about it, and that with
the buffer's invariant every rule completes (R121). -/

namespace Sys2Proof

/-- A word the decoder gives a command for is accepted by that command's row of the opcode map (R54). -/
theorem legalWord_of_decode_eq_ok {w : CmdWord} {i : Instr} (h : decode w = .ok i) :
    legalWord w = true := by
  obtain ⟨hop, himm, -⟩ := encode_eq_iff.1 (decode_eq_ok_iff.1 h)
  exact List.any_eq_true.2 ⟨i.row, row_mem_opcodeMap i, row_accepts_iff.2 ⟨hop, himm⟩⟩

end Sys2Proof

namespace Sys2Proof.Machine

open Sys2Proof.Claims

/-- A command that answers a next state took the fault its row of the fault table names, with its own word,
or its condition does not hold and the fault registers are untouched. -/
theorem exec_next_tableFault {i : Instr} {s t : State} (h : exec i s = .next t) :
    (∃ f, TableFault i s.wp.toNat = some (faultNumber f) ∧ t = raiseFault f (encode i) s) ∨
      (TableFault i s.wp.toNat = none ∧ t.err = s.err ∧ t.errc = s.errc ∧ t.errw = s.errw) := by
  by_cases hr : Reads i = true
  · rcases exec_next_of_reads hr h with hfault | ⟨htable, v, -, rfl⟩
    · exact .inl hfault
    · exact .inr ⟨htable, rfl, rfl, rfl⟩
  · cases i with
    | aclr | apush b | rclr => cases h; exact .inr ⟨rfl, rfl, rfl, rfl⟩
    | rpush b =>
      by_cases hw : s.wp.toNat = Config.bufLen
      · rw [exec_rpush_of_full b hw] at h
        cases h
        exact .inl ⟨.bufFull, if_pos hw, rfl⟩
      · have happend : exec (.rpush b) s = appendBuffer b s := if_neg hw
        rcases appendBuffer_cases b s with ⟨-, e⟩ | ⟨-, e⟩ <;> rw [happend, e] at h <;> cases h
        exact .inr ⟨if_neg hw, rfl, rfl, rfl⟩
    | _ => exact absurd rfl hr

/-- An accepted word that raises ERR is no command, or a command whose condition in the fault table holds
(R123). -/
theorem acceptCommand_raises_err {w : CmdWord} {s t : State} (hs : s.err = false)
    (h : acceptCommand w s = .next t) (ht : t.err = true) :
    t = { s with err := true, errc := t.errc, errw := w } ∧
      (∀ e, decode w = .error e → t.errc = faultNumber .illegalCmd) ∧
      (∀ i, decode w = .ok i → TableFault i s.wp.toNat = some t.errc) := by
  cases hdec : decode w with
  | error d =>
    rw [acceptCommand_of_decode_error hs hdec] at h
    cases h
    exact ⟨rfl, fun _ _ => rfl, nofun⟩
  | ok i =>
    rw [acceptCommand_of_decode_ok hs hdec] at h
    rcases exec_next_tableFault h with ⟨f, htable, rfl⟩ | ⟨-, hkeep, -⟩
    · obtain rfl := decode_eq_ok_iff.1 hdec
      refine ⟨rfl, nofun, fun j hj => ?_⟩
      cases hj
      exact htable
    · cases hs.symm.trans (hkeep.symm.trans ht)

/-- With the invariant the buffer holds a sequence of WP bytes (R11). -/
theorem exists_holds_of_bufferInv {s : State} {len : Nat} (h : BufferInv s) (hwp : s.wp.toNat = len) :
    ∃ r : Vector Byte len, Holds r.toList s := by
  subst hwp
  choose byte hbyte using fun i : Fin s.wp.toNat => readByte_of_bufferInv h i.isLt
  refine ⟨Vector.ofFn byte, holds_iff.2 ⟨Vector.length_toList.symm, fun i hi => ?_⟩⟩
  rw [Vector.getElem_toList, Vector.getElem_ofFn]
  exact hbyte ⟨i, by simpa using hi⟩

theorem xchanValue_of_holds {r : Vector Byte 34} {s : State} (hr : Holds r.toList s) :
    xchanValue s.buf = .ok (unpack r).channelsMinus1 := by
  rw [xchanValue, readByte_of_holds hr 12 (by decide)]
  rfl

theorem xbpsValue_of_holds {r : Vector Byte 34} {s : State} (hr : Holds r.toList s) :
    xbpsValue s.buf = .ok (unpack r).bitsPerSampleMinus1 := by
  rw [xbpsValue, readByte_of_holds hr 12 (by decide), readByte_of_holds hr 13 (by decide)]
  rfl

/-- With the buffer's invariant every command's rule answers a next state: the bytes it reads hold values,
and RPUSH has room where it does not fault. -/
theorem exec_next_of_bufferInv (i : Instr) {s : State} (h : BufferInv s) : ∃ t, exec i s = .next t := by
  have extract : ∀ {len f w recipe} (value : Vector Byte len → Nat),
      (∀ r : Vector Byte len, Holds r.toList s → recipe s.buf = .ok (value r)) →
      ∃ t, extractField len f w recipe s = .next t := by
    intro len f w recipe value hvalue
    rcases extractField_cases len f w recipe s with ⟨-, e⟩ | ⟨-, v, -, e⟩ | ⟨hwp, v, hstop, -⟩
    · exact ⟨_, e⟩
    · exact ⟨_, e⟩
    · obtain ⟨r, hr⟩ := exists_holds_of_bufferInv h hwp
      cases hstop.symm.trans (hvalue r hr)
  cases i with
  | aclr => exact ⟨_, exec_aclr s⟩
  | apush b => exact ⟨_, exec_apush b s⟩
  | rclr => exact ⟨_, exec_rclr s⟩
  | rpush b =>
    obtain ⟨-, hbound, -⟩ := h
    rcases hbound.eq_or_lt with hfull | hlt
    · exact ⟨_, exec_rpush_of_full b hfull⟩
    · exact ⟨_, exec_rpush_of_lt b hlt⟩
  | rldb k =>
    rcases Nat.lt_or_ge k.toNat s.wp.toNat with hlt | hle
    · obtain ⟨b, hb⟩ := readByte_of_bufferInv h hlt
      exact ⟨_, exec_rldb_of_readByte hlt hb⟩
    · exact ⟨_, exec_rldb_of_le hle⟩
  | hlast => exact extract _ fun _ => hlastValue_of_holds
  | htype => exact extract _ fun _ => htypeValue_of_holds
  | hlen => exact extract _ fun _ => hlenValue_of_holds
  | xrate => exact extract _ fun _ => xrateValue_of_holds
  | xchan => exact extract _ fun _ => xchanValue_of_holds
  | xbps => exact extract _ fun _ => xbpsValue_of_holds
  | xtotal => exact extract _ fun _ => xtotalValue_of_holds
  | xminblk | xmaxblk | xminfrm | xmaxfrm =>
    exact extract _ fun _ hr => memRead_of_holds hr (by decide)

end Sys2Proof.Machine

namespace Sys2Proof.Proofs

open Sys2Proof.Machine Sys2Proof.Claims

/-- Settles O52: with the buffer's invariant the rule completes, and a completed rule obeys its row of the
table. -/
theorem faultTableIsExact : Obligations.FaultTableIsExact := by
  refine ⟨fun i s hbuf => ?row, fun w s herr hw => ?illegal⟩
  case row =>
    obtain ⟨t, ht⟩ := exec_next_of_bufferInv i hbuf
    rcases exec_next_tableFault ht with ⟨f, htable, rfl⟩ | ⟨htable, hkeep⟩
    · rw [htable]
      exact ht
    · rw [htable]
      exact ⟨t, ht, hkeep⟩
  case illegal =>
    cases hdec : decode w with
    | ok i => cases hw.symm.trans (legalWord_of_decode_eq_ok hdec)
    | error e => exact acceptCommand_of_decode_error herr hdec

/-- Settles O53: an idle step and reset do not raise ERR, so the step accepted a presented word. -/
theorem faultEntryWritesOnlyTheFaultRegisters : Obligations.FaultEntryWritesOnlyTheFaultRegisters := by
  intro s t herr hstep hrise
  cases hin : s.inputs with
  | nil =>
    rw [step_of_inputs_nil hin] at hstep
    cases hstep
    cases herr.symm.trans hrise
  | cons p rest =>
    rw [step_of_inputs_cons hin] at hstep
    rcases evalInputs_cases p { s with inputs := rest } with ⟨-, e⟩ | ⟨hrst, hvalid, e⟩ | ⟨-, -, e⟩ <;>
      rw [e] at hstep
    · cases hstep
      cases hrise
    · exact ⟨p, rest, rfl, hrst, hvalid,
        acceptCommand_raises_err (s := { s with inputs := rest }) herr hstep hrise⟩
    · cases hstep
      cases herr.symm.trans hrise

end Sys2Proof.Proofs

namespace Sys2Proof.Proofs

open Sys2Proof.Machine Sys2Proof.Claims

/-- Settles O2: `rst` selects the reset branch of the step whatever else is presented (O3), and the ports,
which do not show the coming inputs, show what reset leaves (O1). A step that clears ERR is a run of one
step, so O5 finds a reset among the one input it takes. -/
theorem rstResetsTheUnitAndNothingElseClearsErr :
    Obligations.RstResetsTheUnitAndNothingElseClearsErr := by
  refine ⟨fun s p rest hin hrst => ?resets, fun s t herr hstep hclear => ?onlyReset⟩
  case resets =>
    obtain ⟨hreset, -, -⟩ := inputPortsSelectWhatTheStepDoes s p rest hin
    obtain ⟨-, -, -, -, -, -, -, -, hacc, hstatus, herrw⟩ := resetLeavesTheStatedValues
    exact ⟨_, hreset hrst, rfl, hacc, hstatus, herrw⟩
  case onlyReset =>
    have hrun : runSteps 1 s = .next t := runSteps_succ_of_next 0 hstep
    obtain ⟨-, clearedByReset⟩ := frozenUnitIgnoresEveryCommand
    obtain ⟨p, hp, hrst⟩ := clearedByReset 1 s t herr hrun hclear
    have hhead : s.inputs.head? = some p := by rwa [List.take_one, Option.mem_toList] at hp
    obtain ⟨rest, hin⟩ := List.head?_eq_some_iff.1 hhead
    exact ⟨p, rest, hin, hrst⟩

end Sys2Proof.Proofs

/-! SUPPORT. What every step keeps: a step resets, raises `IllegalCmd`, runs one command's rule, or changes
nothing but the coming inputs (R19, R52). -/

namespace Sys2Proof.Machine

open Sys2Proof.Claims

/-- A predicate that survives a reset, `IllegalCmd` and every command's rule survives each evaluation of the
inputs. -/
theorem evalInputs_preserves {P : State → Prop} (hreset : ∀ s, P s → P (resetUnit s))
    (hillegal : ∀ w s, P s → P (raiseFault .illegalCmd w s))
    (hexec : ∀ {i s t}, P s → exec i s = .next t → P t)
    {p : PortInput} {s t : State} (hs : P s) (h : evalInputs p s = .next t) : P t := by
  rcases evalInputs_cases p s with ⟨-, e⟩ | ⟨-, -, e⟩ | ⟨-, -, e⟩ <;> rw [e] at h
  · cases h; exact hreset s hs
  · rcases acceptCommand_cases p.cmd s with ⟨-, e⟩ | ⟨-, d, -, e⟩ | ⟨-, i, -, e⟩ <;> rw [e] at h
    · cases h; exact hs
    · cases h; exact hillegal p.cmd s hs
    · exact hexec hs h
  · cases h; exact hs

/-- A predicate that does not speak of the coming inputs and survives whatever the unit does survives each
step. -/
theorem step_preserves {P : State → Prop} (hinputs : ∀ s inputs, P s → P { s with inputs := inputs })
    (hreset : ∀ s, P s → P (resetUnit s)) (hillegal : ∀ w s, P s → P (raiseFault .illegalCmd w s))
    (hexec : ∀ {i s t}, P s → exec i s = .next t → P t)
    {s t : State} (hs : P s) (h : step s = .next t) : P t := by
  cases hin : s.inputs with
  | nil => rw [step_of_inputs_nil hin] at h; cases h; exact hs
  | cons p rest =>
    rw [step_of_inputs_cons hin] at h
    exact evalInputs_preserves hreset hillegal hexec (hinputs s rest hs) h

/-- No command looks at or changes what the host is going to present. -/
theorem exec_keeps_inputs {i : Instr} {s t : State} (h : exec i s = .next t) : t.inputs = s.inputs := by
  rcases exec_next_cases h with ⟨f, rfl⟩ | ⟨v, rfl, -⟩ | ⟨b, -, rfl⟩ | ⟨-, rfl⟩ | ⟨b, -, -, rfl⟩ <;> rfl

theorem evalInputs_keeps_inputs {p : PortInput} {s t : State} (h : evalInputs p s = .next t) :
    t.inputs = s.inputs :=
  evalInputs_preserves (P := fun u => u.inputs = s.inputs) (fun _ hu => hu) (fun _ _ hu => hu)
    (fun hu he => (exec_keeps_inputs he).trans hu) rfl h

theorem exec_keeps_wf {i : Instr} {s t : State} (hs : s.buf.wf) (h : exec i s = .next t) : t.buf.wf := by
  rcases exec_next_cases h with ⟨f, rfl⟩ | ⟨v, rfl, -⟩ | ⟨b, -, rfl⟩ | ⟨-, rfl⟩ | ⟨b, -, hlt, rfl⟩
  · exact hs
  · exact hs
  · exact hs
  · exact clearBuffer_wf s
  · exact insertCell_wf b hs hlt

/-! The invariant, part by part (R11, R12, R14, R17). -/

/-- The emptied buffer meets the buffer's invariant. -/
theorem bufferInv_of_empty {s : State} (hbuf : s.buf = []) (hwp : s.wp = 0#6) : BufferInv s := by
  simp [BufferInv, Memory.wf, hbuf, hwp]

/-- RPUSH adds its index at the end of the listed ones, which WP counts. -/
theorem exec_keeps_bufferInv {i : Instr} {s t : State} (hs : BufferInv s) (h : exec i s = .next t) :
    BufferInv t := by
  have hwf : t.buf.wf := exec_keeps_wf hs.1 h
  rcases exec_next_cases h with ⟨f, rfl⟩ | ⟨v, rfl, -⟩ | ⟨b, -, rfl⟩ | ⟨-, rfl⟩ | ⟨b, -, hlt, rfl⟩
  · exact hs
  · exact hs
  · exact hs
  · exact bufferInv_of_empty rfl rfl
  · obtain ⟨-, -, hkeys⟩ := hs
    have hbelow : ∀ k ∈ s.buf.map Prod.fst, k < s.wp.toNat := by simp [hkeys]
    refine ⟨hwf, ?_, ?_⟩
    · rw [wp_add_one_toNat hlt]; exact hlt
    · rw [insertCell_keys_append b hbelow, wp_add_one_toNat hlt, hkeys, List.range_succ]

/-- APUSH tests the ACC it writes; every other command leaves ACC and Z or writes a value and its test
(R16). -/
theorem exec_keeps_flagInv {i : Instr} {s t : State} (hs : FlagInv s) (h : exec i s = .next t) :
    FlagInv t := by
  by_cases hpush : ∃ b, i = .apush b
  · obtain ⟨b, rfl⟩ := hpush
    rw [exec_apush] at h
    cases h
    exact zeroFlag_toNat _
  · rcases Sys2Proof.Proofs.writesOfAccWriteTheFlags i s t (not_exists.1 hpush) h with
      ⟨hacc, hz, -⟩ | ⟨v, -, hacc, -, hz, -⟩
    · rw [FlagInv, hacc, hz]; exact hs
    · rw [FlagInv, hz, ← hacc, decide_eq_decide, BitVec.toNat_eq, BitVec.toNat_zero]

/-- The codes of the five faults (R121). -/
theorem faultNumber_range (f : FaultCode) : 1 ≤ (faultNumber f).toNat ∧ (faultNumber f).toNat ≤ 5 := by
  cases f <;> decide

theorem faultInv_raiseFault (f : FaultCode) (w : CmdWord) (s : State) : FaultInv (raiseFault f w s) :=
  ⟨nofun, fun _ => faultNumber_range f⟩

theorem exec_keeps_faultInv {i : Instr} {s t : State} (hs : FaultInv s) (h : exec i s = .next t) :
    FaultInv t := by
  rcases exec_next_fault_or_keeps h with ⟨f, rfl⟩ | ⟨herr, herrc, herrw⟩
  · exact faultInv_raiseFault f (encode i) s
  · rw [FaultInv, herr, herrc, herrw]; exact hs

theorem exec_keeps_unitInv {i : Instr} {s t : State} (hs : UnitInv s) (h : exec i s = .next t) :
    UnitInv t := by
  obtain ⟨hbuf, hflag, hfault⟩ := hs
  exact ⟨exec_keeps_bufferInv hbuf h, exec_keeps_flagInv hflag h, exec_keeps_faultInv hfault h⟩

theorem unitInv_resetUnit (s : State) : UnitInv (resetUnit s) :=
  ⟨bufferInv_of_empty rfl rfl, rfl, fun _ => ⟨rfl, rfl⟩, nofun⟩

theorem unitInv_raiseFault {s : State} (hs : UnitInv s) (f : FaultCode) (w : CmdWord) :
    UnitInv (raiseFault f w s) := by
  obtain ⟨hbuf, hflag, -⟩ := hs
  exact ⟨hbuf, hflag, faultInv_raiseFault f w s⟩

/-! Progress: with the invariant nothing stops the model (log 4). -/

theorem evalInputs_next_of_bufferInv (p : PortInput) {s : State} (h : BufferInv s) :
    ∃ t, evalInputs p s = .next t := by
  rcases evalInputs_cases p s with ⟨-, e⟩ | ⟨-, -, e⟩ | ⟨-, -, e⟩
  · exact ⟨_, e⟩
  · rw [e]
    rcases acceptCommand_cases p.cmd s with ⟨-, e⟩ | ⟨-, d, -, e⟩ | ⟨-, i, -, e⟩
    · exact ⟨_, e⟩
    · exact ⟨_, e⟩
    · rw [e]; exact exec_next_of_bufferInv i h
  · exact ⟨_, e⟩

theorem step_next_of_bufferInv {s : State} (h : BufferInv s) : ∃ t, step s = .next t := by
  cases hin : s.inputs with
  | nil => exact ⟨_, step_of_inputs_nil hin⟩
  | cons p rest =>
    rw [step_of_inputs_cons hin]
    exact evalInputs_next_of_bufferInv p (s := { s with inputs := rest }) h

theorem evalInputs_ne_refused (p : PortInput) (s : State) (r : Refusal) : evalInputs p s ≠ .refused r := by
  rcases evalInputs_cases p s with ⟨-, e⟩ | ⟨-, -, e⟩ | ⟨-, -, e⟩ <;> rw [e]
  · nofun
  · rcases acceptCommand_cases p.cmd s with ⟨-, e⟩ | ⟨-, d, -, e⟩ | ⟨-, i, -, e⟩ <;> rw [e]
    · nofun
    · nofun
    · exact exec_ne_refused i s r
  · nofun

end Sys2Proof.Machine

namespace Sys2Proof.Proofs

open Sys2Proof.Machine Sys2Proof.Claims

/-- Settles O55: reset leaves the values `resetUnit` writes, whatever comes next. -/
theorem resetMeetsTheInvariant : Obligations.ResetMeetsTheInvariant := fun inputs =>
  unitInv_resetUnit { State.reset with inputs := inputs }

/-- Settles O56: each part of the invariant survives reset, `IllegalCmd` and every command's rule. -/
theorem stepKeepsTheInvariant : Obligations.StepKeepsTheInvariant := fun _ _ =>
  step_preserves (P := UnitInv) (fun _ inputs hs => unitInv_inputs hs inputs)
    (fun s _ => unitInv_resetUnit s)
    (fun w _ hs => unitInv_raiseFault hs .illegalCmd w) exec_keeps_unitInv

/-- Settles O57, by induction on the number of steps: each answers a next state, which meets the
invariant again (O56). -/
theorem everyRunGoesOn : Obligations.EveryRunGoesOn := by
  intro n
  induction n with
  | zero => exact fun s hs => ⟨s, rfl, hs⟩
  | succ n ih =>
    intro s hs
    obtain ⟨u, hu⟩ := step_next_of_bufferInv hs.1
    rw [runSteps_succ_of_next n hu]
    exact ih u (stepKeepsTheInvariant s u hs hu)

/-- Settles O58: an evaluation of the inputs is a next state or a command's rule, and no rule refuses. -/
theorem noStepRefuses : Obligations.NoStepRefuses := by
  intro s r
  cases hin : s.inputs with
  | nil => rw [step_of_inputs_nil hin]; nofun
  | cons p rest => rw [step_of_inputs_cons hin]; exact evalInputs_ne_refused p _ r

/-- Settles O59: reset and RCLR empty the buffer, and RPUSH writes below 34. -/
theorem stepKeepsTheCanonicalBuffer : Obligations.StepKeepsTheCanonicalBuffer := fun _ _ =>
  step_preserves (P := fun s => s.buf.wf) (fun _ _ hs => hs) (fun _ _ => reset_wf) (fun _ _ hs => hs)
    exec_keeps_wf

/-- Settles O60: a run from reset ends in a state that meets the invariant (O55, O57), and STATUS has its
reserved bits 0 in every state (O7). -/
theorem reachableStatesMeetTheListedFacts : Obligations.ReachableStatesMeetTheListedFacts := by
  rintro s ⟨inputs, n, hrun⟩
  obtain ⟨t, ht, ⟨-, hwp, -⟩, hflag, hclear, hset⟩ := everyRunGoesOn n _ (resetMeetsTheInvariant inputs)
  obtain rfl : s = t := by rw [hrun] at ht; cases ht; rfl
  obtain ⟨-, -, -, hbit, -, -, hhigh, -⟩ := outputPortsShowTheState s
  exact ⟨hwp, hflag, hclear, hset, s.acc.isLt, hbit, hhigh⟩

/-- Settles O8: the input is taken off before it is evaluated, and no evaluation changes the rest. -/
theorem stepConsumesOneInput : Obligations.StepConsumesOneInput := by
  refine ⟨fun s t h => ?_, fun s => step_of_inputs_nil⟩
  cases hin : s.inputs with
  | nil => rw [step_of_inputs_nil hin] at h; cases h; rw [hin, List.tail_nil]
  | cons p rest => rw [step_of_inputs_cons hin] at h; exact evalInputs_keeps_inputs h

end Sys2Proof.Proofs

/-! SUPPORT. The opcode map's rows by their two fields, and how many words they accept (30_encoding.md
section 4). -/

namespace Sys2Proof

/-- Every row's mask keeps `op` whole (R54). -/
theorem opcodeMap_mask :
    ∀ r ∈ opcodeMap, r.mask = mkWord (BitVec.allOnes 8) (immField r.mask) := by decide

/-- A row's `op` is an opcode; one that is not of format I asks for `imm` 0 (R51, R54). -/
theorem opcodeMap_pattern :
    ∀ r ∈ opcodeMap, opField r.pattern ∈ opcodes ∧ (opField r.pattern ∉ formatIOpcodes →
      immField r.mask = BitVec.allOnes 8 ∧ immField r.pattern = 0x00#8) := by decide

/-- What an accepted word has in its two fields. -/
theorem fields_of_accepts {r : OpcodeRow} {w : CmdWord} (hr : r ∈ opcodeMap) (h : r.accepts w = true) :
    opField w = opField r.pattern ∧ immField w &&& immField r.mask = immField r.pattern := by
  rwa [OpcodeRow.accepts, beq_iff_eq, opcodeMap_mask r hr, and_mkWord_allOnes, mkWord_eq_iff] at h

theorem opcodeMap_ops_nodup : (opcodeMap.map fun r => opField r.pattern).Nodup := by decide

/-- Two rows that accept one word have one `op`, and no two rows of the map share theirs. -/
theorem eq_of_accepts {a b : OpcodeRow} {w : CmdWord} (ha : a ∈ opcodeMap) (hb : b ∈ opcodeMap)
    (haw : a.accepts w = true) (hbw : b.accepts w = true) : a = b :=
  List.inj_on_of_nodup_map opcodeMap_ops_nodup ha hb
    ((fields_of_accepts ha haw).1.symm.trans (fields_of_accepts hb hbw).1)

/-- The legal words by their two fields: any `imm` with an opcode of format I, 0 with one of format N (R51,
R54). -/
theorem legalWord_iff {w : CmdWord} :
    legalWord w = true ↔
      opField w ∈ opcodes ∧ (opField w ∉ formatIOpcodes → immField w = 0x00#8) := by
  constructor
  · intro h
    obtain ⟨r, hr, hw⟩ := List.any_eq_true.1 h
    obtain ⟨hop, himm⟩ := fields_of_accepts hr hw
    obtain ⟨hmem, hformatN⟩ := opcodeMap_pattern r hr
    rw [hop]
    refine ⟨hmem, fun hN => ?_⟩
    obtain ⟨hmask, hzero⟩ := hformatN hN
    rwa [hmask, hzero, BitVec.and_allOnes] at himm
  · intro h
    obtain ⟨i, hi⟩ := exists_encode_eq_iff.2 h
    exact legalWord_of_decode_eq_ok (decode_eq_ok_iff.2 hi)

/-- The fields (`op`, `imm`) of the legal words. -/
def legalFields : Finset (Byte × Byte) :=
  formatIOpcodes.toFinset ×ˢ Finset.univ ∪ (opcodes.toFinset \ formatIOpcodes.toFinset) ×ˢ {0x00#8}

theorem mem_legalFields {f : Byte × Byte} :
    f ∈ legalFields ↔ f.1 ∈ opcodes ∧ (f.1 ∉ formatIOpcodes → f.2 = 0x00#8) := by
  have hsub : f.1 ∈ formatIOpcodes → f.1 ∈ opcodes := fun h =>
    (by decide : ∀ op ∈ formatIOpcodes, op ∈ opcodes) f.1 h
  simp only [legalFields, Finset.mem_union, Finset.mem_product, List.mem_toFinset, Finset.mem_univ,
    Finset.mem_sdiff, Finset.mem_singleton]
  tauto

/-- Three opcodes with 256 operands each, and 13 with the one `imm` 0. -/
theorem card_legalFields : legalFields.card = 781 := by
  have hdisj : Disjoint (formatIOpcodes.toFinset ×ˢ (Finset.univ : Finset Byte))
      ((opcodes.toFinset \ formatIOpcodes.toFinset) ×ˢ {0x00#8}) :=
    Finset.disjoint_product.2 (.inl Finset.disjoint_sdiff)
  have hI : formatIOpcodes.toFinset.card = 3 := by decide
  have hN : (opcodes.toFinset \ formatIOpcodes.toFinset).card = 13 := by decide
  have hbytes : (Finset.univ : Finset Byte).card = 256 :=
    (Fintype.card_congr (BitVec.equivFin (m := 8)).toEquiv).trans (Fintype.card_fin _)
  rw [legalFields, Finset.card_union_of_disjoint hdisj, Finset.card_product, Finset.card_product, hI,
    hN, hbytes, Finset.card_singleton]

/-- The legal words, as numbers, are those made of the legal fields. -/
theorem filter_legalWord_eq_image :
    (Finset.range 65536).filter (fun k => legalWord (BitVec.ofNat 16 k) = true) =
      legalFields.image (fun f => (mkWord f.1 f.2).toNat) := by
  ext k
  simp only [Finset.mem_filter, Finset.mem_range, Finset.mem_image, legalWord_iff, mem_legalFields]
  constructor
  · rintro ⟨hk, h⟩
    refine ⟨(opField (BitVec.ofNat 16 k), immField (BitVec.ofNat 16 k)), h, ?_⟩
    rw [mkWord_fields, BitVec.toNat_ofNat, Nat.mod_eq_of_lt hk]
  · rintro ⟨f, h, rfl⟩
    refine ⟨BitVec.isLt _, ?_⟩
    rwa [BitVec.ofNat_toNat, BitVec.setWidth_eq, opField_mkWord, immField_mkWord]

theorem mkWord_toNat_injective :
    Function.Injective fun f : Byte × Byte => (mkWord f.1 f.2).toNat := by
  intro f g h
  obtain ⟨hop, himm⟩ := mkWord_eq_iff.1 (BitVec.eq_of_toNat_eq h)
  rw [opField_mkWord] at hop
  rw [immField_mkWord] at himm
  exact Prod.ext hop himm

theorem mkWord_eq_ofNat (op imm : Byte) :
    mkWord op imm = BitVec.ofNat 16 (op.toNat * 256 + imm.toNat) := by
  rw [← mkWord_toNat, BitVec.ofNat_toNat, BitVec.setWidth_eq]

end Sys2Proof

namespace Sys2Proof.Proofs

open Sys2Proof.Machine Sys2Proof.Claims

/-- Settles O11: the decoder inverts the encoder and the encoder the decoder. -/
theorem decodeEncodeRoundTrip : Obligations.DecodeEncodeRoundTrip :=
  ⟨fun i _ => decode_encode i, fun _ _ => encode_of_decode_eq_ok⟩

/-- Settles O10: a row is found by its `op`, and a legal word by its two fields, which are counted. -/
theorem opcodePatternsDisjointAndCounted : Obligations.OpcodePatternsDisjointAndCounted := by
  refine ⟨fun _ _ _ => eq_of_accepts, ?_⟩
  rw [filter_legalWord_eq_image, Finset.card_image_of_injective _ mkWord_toNat_injective,
    card_legalFields]

/-- Settles O12: the words are closed terms, and the decoder computes. -/
theorem specWordsDecodeAsWritten : Obligations.SpecWordsDecodeAsWritten := by
  unfold Obligations.SpecWordsDecodeAsWritten
  decide

/-- Settles O13: the three words are their commands' encodings; an index from 34 on is not below WP. -/
theorem immediateIsAnUnsignedByte : Obligations.ImmediateIsAnUnsignedByte := by
  refine ⟨fun b => ⟨?apush, ?rpush, ?rldb⟩, fun b s hwp hb => ?range⟩
  case apush => exact decode_eq_ok_iff.2 (mkWord_eq_ofNat 0x11#8 b)
  case rpush => exact decode_eq_ok_iff.2 (mkWord_eq_ofNat 0x21#8 b)
  case rldb => exact decode_eq_ok_iff.2 (mkWord_eq_ofNat 0x22#8 b)
  case range =>
    have hword : encode (.rldb b) = BitVec.ofNat 16 (0x2200 + b.toNat) := mkWord_eq_ofNat 0x22#8 b
    rw [exec_rldb_of_le (hwp.trans hb), hword]
    rfl

/-- Settles O54: the decoder rejects the word, so the step accepts no command's rule. -/
theorem decodeCheckComesBeforeThePrecondition : Obligations.DecodeCheckComesBeforeThePrecondition := by
  intro s op imm rest herr hop himm hin
  have hformatN : op ∉ formatIOpcodes :=
    (by decide : ∀ op ∈ [0x10#8, 0x20#8, 0x30#8, 0x31#8, 0x32#8, 0x40#8, 0x41#8, 0x42#8, 0x43#8, 0x44#8,
      0x45#8, 0x46#8, 0x47#8], op ∉ formatIOpcodes) op hop
  have hreserved : opField (mkWord op imm) ∉ formatIOpcodes ∧ immField (mkWord op imm) ≠ 0x00#8 := by
    rw [opField_mkWord, immField_mkWord]
    exact ⟨hformatN, himm⟩
  exact (reservedWordsRaiseIllegalCmd (op ++ imm)).1 (.inr hreserved) s rest herr hin

end Sys2Proof.Proofs

/-! SUPPORT. The laws of BE (R66, R67) and how much of an accumulator a byte sequence needs (R73). -/

namespace Sys2Proof.Machine

theorem beValue_singleton (b : Byte) : beValue [b] = b.toNat := by simp [beValue]

theorem beValue_append (s t : List Byte) :
    beValue (s ++ t) = beValue s * 256 ^ t.length + beValue t := by
  induction s with
  | nil => simp [beValue]
  | cons b s ih => rw [List.cons_append, beValue, ih, beValue, List.length_append, pow_add]; ring

/-- Sequences of one length and one BE are one: the rest is the remainder by the first byte's weight. -/
theorem beValue_injective {s t : List Byte} (hlen : s.length = t.length)
    (h : beValue s = beValue t) : s = t := by
  induction s generalizing t with
  | nil => exact (List.length_eq_zero_iff.1 hlen.symm).symm
  | cons b s ih =>
    cases t with
    | nil => cases hlen
    | cons c t =>
      have hlen : s.length = t.length := Nat.succ.inj hlen
      rw [beValue, beValue, ← hlen] at h
      have hs : beValue s < 256 ^ s.length := beValue_lt s
      have ht : beValue t < 256 ^ s.length := hlen ▸ beValue_lt t
      have hrest : beValue s = beValue t := by
        have hmod := congrArg (· % 256 ^ s.length) h
        simpa only [Nat.mul_add_mod_self_right, Nat.mod_eq_of_lt hs, Nat.mod_eq_of_lt ht] using hmod
      rw [hrest] at h
      have hfirst : b.toNat = c.toNat :=
        Nat.eq_of_mul_eq_mul_right (Nat.pow_pos (by decide)) (Nat.add_right_cancel h)
      rw [BitVec.eq_of_toNat_eq hfirst, ih hlen hrest]

/-- Every value below 256^n is BE of some n bytes. -/
theorem exists_beValue_eq {n v : Nat} (h : v < 256 ^ n) :
    ∃ s : List Byte, s.length = n ∧ beValue s = v := by
  induction n generalizing v with
  | zero => exact ⟨[], rfl, (Nat.lt_one_iff.1 h).symm⟩
  | succ n ih =>
    have hpos : 0 < 256 ^ n := Nat.pow_pos (by decide)
    obtain ⟨s, hlen, hs⟩ := ih (Nat.mod_lt v hpos)
    have hb : v / 256 ^ n < 2 ^ 8 := Nat.div_lt_of_lt_mul h
    refine ⟨BitVec.ofNat 8 (v / 256 ^ n) :: s, by rw [List.length_cons, hlen], ?_⟩
    rw [beValue, hs, hlen, BitVec.toNat_ofNat, Nat.mod_eq_of_lt hb, Nat.div_add_mod']

theorem beValue_eq_zero_iff (bs : List Byte) : beValue bs = 0 ↔ ∀ b ∈ bs, b = 0#8 := by
  induction bs with
  | nil => simp [beValue]
  | cons b bs ih =>
    have hb : b.toNat = 0 ↔ b = 0#8 := by rw [BitVec.toNat_eq, BitVec.toNat_zero]
    simp [beValue, ih, hb]

/-- Beyond its last eight bytes a sequence is worth 2^64 a unit (R73). -/
theorem le_beValue_iff {bs : List Byte} (h : 8 < bs.length) :
    2 ^ 64 ≤ beValue bs ↔ ∃ b ∈ bs.take (bs.length - 8), b ≠ 0#8 := by
  have hlast : (bs.drop (bs.length - 8)).length = 8 := by rw [List.length_drop]; omega
  have hlow := beValue_lt (bs.drop (bs.length - 8))
  have hsplit := beValue_append (bs.take (bs.length - 8)) (bs.drop (bs.length - 8))
  rw [hlast] at hlow hsplit
  rw [List.take_append_drop] at hsplit
  have hpos : 2 ^ 64 ≤ beValue bs ↔ beValue (bs.take (bs.length - 8)) ≠ 0 := by omega
  rw [hpos, Ne, beValue_eq_zero_iff]
  push Not
  rfl

/-- A push onto an accumulator whose top byte is empty spills nothing and drops nothing. -/
theorem pushByte_of_lt {w k : Nat} {acc : BitVec w} (h : acc.toNat < 2 ^ k) (hk : k + 8 ≤ w) (b : Byte) :
    pushSpill acc = false ∧ (pushByte acc b).toNat = acc.toNat * 256 + b.toNat ∧
      (pushByte acc b).toNat < 2 ^ (k + 8) := by
  have hb := b.isLt
  have hlt : acc.toNat * 256 + b.toNat < 2 ^ (k + 8) := by rw [pow_add]; omega
  have hfits : (pushByte acc b).toNat = acc.toNat * 256 + b.toNat := by
    rw [pushByte_toNat, Nat.mod_eq_of_lt (hlt.trans_le (Nat.pow_le_pow_right (by decide) hk))]
  have htop : acc.toNat / 2 ^ (w - 8) = 0 :=
    Nat.div_eq_of_lt (h.trans_le (Nat.pow_le_pow_right (by decide) (Nat.le_sub_of_add_le hk)))
  exact ⟨by rw [pushSpill, htop]; rfl, hfits, hfits ▸ hlt⟩

end Sys2Proof.Machine

namespace Sys2Proof.Proofs

open Sys2Proof.Machine Sys2Proof.Claims

/-- Settles O15: the concatenation law gives the other two, a byte being a sequence of one. -/
theorem bigEndianLaws : Obligations.BigEndianLaws := by
  refine ⟨rfl, beValue_singleton, rfl, fun s b => ?_, fun b s => rfl, beValue_append⟩
  rw [beValue_append, beValue_singleton, List.length_singleton, pow_one]

/-- Settles O16: existence by division from the first byte on, uniqueness by injectivity at one length. -/
theorem bigEndianRangeAndBijection : Obligations.BigEndianRangeAndBijection := by
  refine ⟨beValue_lt, fun n v hv => ?bijection, fun s => ?leadingZero⟩
  case bijection =>
    obtain ⟨s, hlen, hs⟩ := exists_beValue_eq hv
    exact ⟨s, ⟨hlen, hs⟩, fun t ⟨htlen, ht⟩ =>
      beValue_injective (htlen.trans hlen.symm) (ht.trans hs.symm)⟩
  case leadingZero => simp [beValue]

/-- Settles O22: the masked first byte leaves 4 bits in use, and each push adds eight: 36 after the last. -/
theorem howManyBytesFit : Obligations.HowManyBytesFit := by
  refine ⟨fun bs h => ?fits, fun bs => le_beValue_iff, fun w b0 b1 b2 b3 b4 hw => ?masked⟩
  case fits =>
    calc beValue bs < 256 ^ bs.length := beValue_lt bs
      _ ≤ 256 ^ 8 := Nat.pow_le_pow_right (by decide) h
      _ = 2 ^ 64 := by decide
  case masked =>
    have hnibble : (b0 &&& 0x0F#8).toNat < 2 ^ 4 := by
      rw [toNat_and_lowNibble]; exact Nat.mod_lt _ (by decide)
    obtain ⟨hs0, hv1, -⟩ := pushByte_of_lt (k := 0) (acc := 0#w) (by simp) (by omega) (b0 &&& 0x0F#8)
    have hlt1 : (pushByte (0#w) (b0 &&& 0x0F#8)).toNat < 2 ^ 4 := by
      rw [hv1, BitVec.toNat_zero]; omega
    obtain ⟨hs1, hv2, hlt2⟩ := pushByte_of_lt hlt1 (by omega) b1
    obtain ⟨hs2, hv3, hlt3⟩ := pushByte_of_lt hlt2 (by omega) b2
    obtain ⟨hs3, hv4, hlt4⟩ := pushByte_of_lt hlt3 (by omega) b3
    obtain ⟨hs4, hv5, -⟩ := pushByte_of_lt hlt4 (by omega) b4
    refine ⟨hs0, hs1, hs2, hs3, hs4, ?_⟩
    rw [hv5, hv4, hv3, hv2, hv1, beValue_five, BitVec.toNat_zero]
    omega

end Sys2Proof.Proofs

/-! SUPPORT. Runs of presented commands, and what a run of pushes makes of the accumulator (R40, R71 to R74). -/

namespace Sys2Proof.Machine

/-- A run goes on from where its first m steps end. -/
theorem runSteps_add_of_next {m : Nat} (n : Nat) {s t : State} (h : runSteps m s = .next t) :
    runSteps (m + n) s = runSteps n t := by
  induction m generalizing s with
  | zero => cases h; rw [Nat.zero_add]
  | succ m ih =>
    rw [runSteps] at h
    split at h
    case h_1 u hu => rw [Nat.succ_add, runSteps_succ_of_next _ hu, ih h]
    case h_2 => cases h
    case h_3 => cases h

/-- A presented command runs its rule in a unit that is not frozen. -/
theorem step_of_presentAll_cons {s : State} {i : Instr} {is : List Instr} {rest : List PortInput}
    (herr : s.err = false) (hin : s.inputs = presentAll (i :: is) ++ rest) :
    step s = exec i { s with inputs := presentAll is ++ rest } := by
  rw [step_of_presentWord (w := encode i) (rest := presentAll is ++ rest) hin]
  exact acceptCommand_of_decode_ok herr (decode_encode i)

/-- A presented command that completes hands the rest of the run to the state it leaves. -/
theorem runSteps_presentAll_cons {s t : State} {i : Instr} {is : List Instr} {rest : List PortInput}
    (n : Nat) (herr : s.err = false) (hin : s.inputs = presentAll (i :: is) ++ rest)
    (h : exec i { s with inputs := presentAll is ++ rest } = .next t) :
    runSteps (n + 1) s = runSteps n t :=
  runSteps_succ_of_next n ((step_of_presentAll_cons herr hin).trans h)

/-- Presented commands alone do not end a fault (R125). -/
theorem err_of_runSteps_presentAll {s t : State} {is : List Instr} {rest : List PortInput}
    (herr : s.err = true) (hin : s.inputs = presentAll is ++ rest)
    (h : runSteps is.length s = .next t) : t.err = true := by
  have hrst : ∀ p ∈ s.inputs.take is.length, p.rst = false := by
    have hlen : is.length = (presentAll is).length := by rw [presentAll, List.length_map]
    rw [hin, hlen, List.take_left]
    intro p hp
    obtain ⟨i, -, rfl⟩ := List.mem_map.1 hp
    rfl
  rw [runSteps_frozen herr hrst] at h
  cases h
  exact herr

/-! The accumulator while a sequence worth `v` so far is being decoded in it. -/

/-- ACC is `v` modulo 2^64, and OVF says exactly when that is not `v` itself (R71, R72). -/
def AccDecodes (v : Nat) (s : State) : Prop :=
  s.acc = BitVec.ofNat 64 v ∧ s.ovf = decide (2 ^ 64 ≤ v)

theorem accDecodes_acc {s : State} (h : s.ovf = false) : AccDecodes s.acc.toNat s := by
  refine ⟨by rw [BitVec.ofNat_toNat, BitVec.setWidth_eq], ?_⟩
  rw [h, eq_comm, decide_eq_false_iff_not]
  exact Nat.not_le.2 s.acc.isLt

/-- The reduced ACC has lost nothing yet, or OVF says so already; what it spills next decides between the
two for the longer sequence. -/
theorem accDecodes_appendAcc {v : Nat} {s : State} (h : AccDecodes v s) (b : Byte) :
    AccDecodes (v * 256 + b.toNat) (appendAcc b s) := by
  obtain ⟨hacc, hovf⟩ := h
  have hmod : s.acc.toNat = v % 2 ^ 64 := by rw [hacc, BitVec.toNat_ofNat]
  have hb := b.isLt
  refine ⟨BitVec.eq_of_toNat_eq ?_, ?_⟩
  · rw [appendAcc_acc, pushByte_toNat, BitVec.toNat_ofNat, hmod]
    omega
  · rw [appendAcc_ovf, hovf, pushSpill, hmod, ← Bool.decide_or, decide_eq_decide]
    omega

/-- Pushed one by one from ACC = v, the bytes of a sequence add up to `v * 256^n + BE` (R74). -/
theorem value_push_cons (v : Nat) (b : Byte) (bs : List Byte) :
    (v * 256 + b.toNat) * 256 ^ bs.length + beValue bs =
      v * 256 ^ (b :: bs).length + beValue (b :: bs) := by
  rw [beValue, List.length_cons, pow_succ]
  ring

/-- ACC and its flags after pushing the bytes of a sequence. -/
def appendAll (bs : List Byte) (s : State) : State := bs.foldl (fun u b => appendAcc b u) s

theorem appendAll_cons (b : Byte) (bs : List Byte) (s : State) :
    appendAll (b :: bs) s = appendAll bs (appendAcc b s) := rfl

/-- Pushing changes ACC, Z and OVF alone. -/
theorem appendAll_frame (bs : List Byte) (s : State) :
    appendAll bs s = { s with
      acc := (appendAll bs s).acc, z := (appendAll bs s).z, ovf := (appendAll bs s).ovf } := by
  induction bs generalizing s with
  | nil => rfl
  | cons b bs ih => rw [appendAll_cons]; exact ih (appendAcc b s)

theorem accDecodes_appendAll {v : Nat} (bs : List Byte) {s : State} (h : AccDecodes v s) :
    AccDecodes (v * 256 ^ bs.length + beValue bs) (appendAll bs s) := by
  induction bs generalizing v s with
  | nil => simpa [beValue, appendAll] using h
  | cons b bs ih =>
    rw [appendAll_cons, ← value_push_cons]
    exact ih (accDecodes_appendAcc h b)

theorem flagInv_appendAll (bs : List Byte) {s : State} (h : FlagInv s) : FlagInv (appendAll bs s) := by
  induction bs generalizing s with
  | nil => exact h
  | cons b bs ih => rw [appendAll_cons]; exact ih (exec_keeps_flagInv h (exec_apush b s))

/-- A run of presented pushes completes, since APUSH never faults. -/
theorem runSteps_apush {bs : List Byte} {s : State} {rest : List PortInput} (herr : s.err = false)
    (hin : s.inputs = presentAll (bs.map .apush) ++ rest) :
    runSteps bs.length s = .next (appendAll bs { s with inputs := rest }) := by
  induction bs generalizing s with
  | nil => obtain rfl : s.inputs = rest := hin; rfl
  | cons b bs ih =>
    rw [List.map_cons] at hin
    rw [List.length_cons, runSteps_presentAll_cons bs.length herr hin (exec_apush b _)]
    exact ih herr rfl

/-- ACLR begins a sequence: the empty one, worth 0 (R69). -/
theorem accDecodes_aclr (s : State) : AccDecodes 0 (writeAcc 0 s) := ⟨rfl, rfl⟩

theorem flagInv_aclr (s : State) : FlagInv (writeAcc 0 s) := rfl

/-- One of the commands among the pushes, if it does not fault, appends its byte to the sequence or leaves
the accumulator alone. -/
theorem accDecodes_loadOrPush {v : Nat} {i : Instr} {is : List Instr} {s t : State}
    (hi : i = .rclr ∨ (∃ b, i = .apush b) ∨ ∃ b, i = .rpush b) (hs : AccDecodes v s)
    (h : exec i s = .next t) :
    ∃ u, AccDecodes u t ∧ u * 256 ^ (pushedBytes is).length + beValue (pushedBytes is) =
      v * 256 ^ (pushedBytes (i :: is)).length + beValue (pushedBytes (i :: is)) := by
  rcases hi with rfl | ⟨b, rfl⟩ | ⟨b, rfl⟩
  · rw [exec_rclr] at h
    cases h
    exact ⟨v, hs, rfl⟩
  · rw [exec_apush] at h
    cases h
    exact ⟨_, accDecodes_appendAcc hs b, value_push_cons v b (pushedBytes is)⟩
  · obtain ⟨hacc, -, hovf⟩ := exec_rpush_keeps_acc h
    exact ⟨v, by rwa [AccDecodes, hacc, hovf], rfl⟩

/-- A run of pushes with loading commands among them, which ends without a fault, decodes the pushed bytes
behind what ACC held: a fault on the way would have frozen the unit. -/
theorem accDecodes_of_runSteps {v : Nat} {is : List Instr} {rest : List PortInput} {s t : State}
    (his : ∀ i ∈ is, i = .rclr ∨ (∃ b, i = .apush b) ∨ ∃ b, i = .rpush b)
    (herr : s.err = false) (hin : s.inputs = presentAll is ++ rest) (hs : AccDecodes v s)
    (hflag : FlagInv s) (h : runSteps is.length s = .next t) (ht : t.err = false) :
    AccDecodes (v * 256 ^ (pushedBytes is).length + beValue (pushedBytes is)) t ∧ FlagInv t := by
  induction is generalizing v s with
  | nil =>
    cases h
    exact ⟨by simpa [pushedBytes, beValue] using hs, hflag⟩
  | cons i is ih =>
    obtain ⟨hi, his⟩ := List.forall_mem_cons.1 his
    have hstep := step_of_presentAll_cons herr hin
    cases he : exec i { s with inputs := presentAll is ++ rest } with
    | fault e => rw [List.length_cons, runSteps, hstep, he] at h; cases h
    | refused r => exact absurd he (exec_ne_refused i _ r)
    | next u =>
      rw [List.length_cons, runSteps_succ_of_next _ (hstep.trans he)] at h
      have hinu : u.inputs = presentAll is ++ rest := exec_keeps_inputs he
      cases herru : u.err with
      | true => cases ht.symm.trans (err_of_runSteps_presentAll herru hinu h)
      | false =>
        obtain ⟨w, hw, hvalue⟩ := accDecodes_loadOrPush (is := is)
          (s := { s with inputs := presentAll is ++ rest }) hi hs he
        rw [← hvalue]
        exact ih his herru hinu hw
          (exec_keeps_flagInv (s := { s with inputs := presentAll is ++ rest }) hflag he) h

end Sys2Proof.Machine

namespace Sys2Proof.Proofs

open Sys2Proof.Machine Sys2Proof.Claims

/-- Settles O21: the run is `appendAll`, which changes ACC and its flags alone and goes on from the value
ACC held. -/
theorem pushingContinuesFromTheAccumulator : Obligations.PushingContinuesFromTheAccumulator := by
  intro bs rest s herr hovf hin
  obtain ⟨hacc, hovf⟩ := accDecodes_appendAll bs (s := { s with inputs := rest }) (accDecodes_acc hovf)
  refine ⟨_, runSteps_apush herr hin, appendAll_frame bs _, ?_, hovf⟩
  rw [hacc, BitVec.toNat_ofNat]

/-- Settles O20: ACLR leaves the value of the empty sequence, from which the pushes go on. -/
theorem decodePseudoInstructionCompletes : Obligations.DecodePseudoInstructionCompletes := by
  intro bs rest s herr hin
  have hrun : runSteps bs.length (writeAcc 0 { s with inputs := presentAll (bs.map .apush) ++ rest }) =
      .next (appendAll bs (writeAcc 0 { s with inputs := rest })) := runSteps_apush herr rfl
  obtain ⟨hacc, hovf⟩ := accDecodes_appendAll bs (accDecodes_aclr { s with inputs := rest })
  have hz := flagInv_appendAll bs (flagInv_aclr { s with inputs := rest })
  rw [Nat.zero_mul, Nat.zero_add] at hacc hovf
  rw [FlagInv, hacc, ← zeroFlag_toNat, BitVec.toNat_ofNat] at hz
  rw [runSteps_presentAll_cons bs.length herr hin (exec_aclr _), hrun, appendAll_frame, hacc, hovf, hz]
  rfl

/-- Settles O19: a run that ends without a fault was never frozen, so every push counted. -/
theorem accumulatorDecodesThePushedBytes : Obligations.AccumulatorDecodesThePushedBytes := by
  intro is rest s t herr his hin hrun ht
  rw [runSteps_presentAll_cons is.length herr hin (exec_aclr _)] at hrun
  obtain ⟨⟨hacc, hovf⟩, hz⟩ := accDecodes_of_runSteps
    (s := writeAcc 0 { s with inputs := presentAll is ++ rest }) his herr rfl (accDecodes_aclr _)
    (flagInv_aclr _) hrun ht
  rw [Nat.zero_mul, Nat.zero_add] at hacc hovf
  have hmod : t.acc.toNat = beValue (pushedBytes is) % 2 ^ 64 := by rw [hacc, BitVec.toNat_ofNat]
  refine ⟨hmod, hz, hovf, fun hfits => ?_⟩
  rw [hovf, decide_eq_false_iff_not] at hfits
  rw [hmod, Nat.mod_eq_of_lt (Nat.not_le.1 hfits)]

end Sys2Proof.Proofs

/-! SUPPORT. What the buffer holds, which commands touch it, and a read after a read (R11, R12, R35, R84). -/

namespace Sys2Proof.Machine

open Sys2Proof.Claims

/-- The buffer holds no two sequences: WP gives the length and each byte reads as one value. -/
theorem holds_unique {bs cs : List Byte} {s : State} (hb : Holds bs s) (hc : Holds cs s) : bs = cs := by
  obtain ⟨hblen, hbread⟩ := hb
  obtain ⟨hclen, hcread⟩ := hc
  rw [← hblen] at hbread
  rw [← hclen, hbread] at hcread
  exact Except.ok.inj hcread

/-- A byte that reads as a value is listed. -/
theorem mem_keys_of_readByte {m : Memory} {a : Nat} {b : Byte} (h : readByte m a = .ok b) :
    a ∈ m.map Prod.fst := by
  rw [← lookupCell_isSome_iff]
  unfold readByte at h
  split_ifs at h
  split at h
  case h_1 c hc => rw [hc]; rfl
  case h_2 => cases h

/-- RPUSH in a state no run reaches: WP is past the buffer's end (log 4). -/
theorem exec_rpush_of_gt (b : Byte) {s : State} (h : Config.bufLen < s.wp.toNat) :
    exec (.rpush b) s = .fault (.noSuchByte s.wp.toNat) := by
  have happend : exec (.rpush b) s = appendBuffer b s := if_neg (Nat.ne_of_gt h)
  rcases appendBuffer_cases b s with ⟨hlt, -⟩ | ⟨-, e⟩
  · exact absurd hlt (Nat.not_lt.2 h.le)
  · rw [happend, e]

/-- Where RPUSH answers a next state, it took its fault at 34 bytes or stored its byte below. -/
theorem exec_rpush_next_cases {b : Byte} {s t : State} (h : exec (.rpush b) s = .next t) :
    (s.wp.toNat = Config.bufLen ∧ t = raiseFault .bufFull (encode (.rpush b)) s) ∨
    (s.wp.toNat < Config.bufLen ∧
      t = { s with buf := insertCell s.buf s.wp.toNat b, wp := s.wp + 1#6 }) := by
  rcases Nat.lt_trichotomy s.wp.toNat Config.bufLen with hlt | hfull | hgt
  · rw [exec_rpush_of_lt b hlt] at h; cases h; exact .inr ⟨hlt, rfl⟩
  · rw [exec_rpush_of_full b hfull] at h; cases h; exact .inl ⟨hfull, rfl⟩
  · rw [exec_rpush_of_gt b hgt] at h; cases h

/-- Only RCLR and RPUSH store in the buffer or move WP (R12). -/
theorem exec_keeps_buffer {i : Instr} {s t : State} (h : exec i s = .next t) (hclr : i ≠ .rclr)
    (hpush : ∀ b, i ≠ .rpush b) : t.buf = s.buf ∧ t.wp = s.wp := by
  rcases exec_next_cases h with ⟨f, rfl⟩ | ⟨v, rfl, -⟩ | ⟨b, -, rfl⟩ | ⟨hi, -⟩ | ⟨b, hi, -⟩
  · exact ⟨rfl, rfl⟩
  · exact ⟨rfl, rfl⟩
  · exact ⟨rfl, rfl⟩
  · exact absurd hi hclr
  · exact absurd hi (hpush b)

/-- RPUSH neither reads ACC, Z or OVF nor writes them (R84). -/
theorem exec_rpush_independent (b : Byte) (s : State) (a : AccWord) (z o : Bool) :
    exec (.rpush b) { s with acc := a, z := z, ovf := o } =
      mapNext (fun t => { t with acc := a, z := z, ovf := o }) (exec (.rpush b) s) := by
  rcases Nat.lt_trichotomy s.wp.toNat Config.bufLen with hlt | hfull | hgt
  · rw [exec_rpush_of_lt b hlt,
      exec_rpush_of_lt (s := { s with acc := a, z := z, ovf := o }) b hlt, mapNext]
  · rw [exec_rpush_of_full b hfull,
      exec_rpush_of_full (s := { s with acc := a, z := z, ovf := o }) b hfull, mapNext]
    rfl
  · rw [exec_rpush_of_gt b hgt,
      exec_rpush_of_gt (s := { s with acc := a, z := z, ovf := o }) b hgt, mapNext]

/-- A reading command looks at WP and the buffer alone, and what it writes replaces what was in ACC. -/
theorem exec_reads_writeAcc {j : Instr} {s u : State} (v : Nat) (hj : Reads j = true)
    (hs : exec j s = .next u) (hu : u.err = false) : exec j (writeAcc v s) = .next u := by
  have extract : ∀ {len f w value}, extractField len f w value s = .next u →
      extractField len f w value (writeAcc v s) = .next u := by
    intro len f w value h
    rcases extractField_cases len f w value s with ⟨-, e⟩ | ⟨hwp, x, hx, e⟩ | ⟨-, x, -, e⟩ <;>
      rw [e] at h <;> cases h
    · cases hu
    · rw [extractField, writeAcc_wp, writeAcc_buf, if_pos hwp, hx]
      rfl
  cases j with
  | aclr => cases hj
  | apush b => cases hj
  | rclr => cases hj
  | rpush b => cases hj
  | rldb k =>
    rcases loadByte_cases k (encode (.rldb k)) s with ⟨-, e⟩ | ⟨hlt, b, hb, e⟩ | ⟨-, x, -, e⟩ <;>
      simp only [exec, execRldb, e] at hs <;> cases hs
    · cases hu
    · exact exec_rldb_of_readByte (s := writeAcc v s) hlt hb
  | _ => exact extract hs

/-- A reading command that does not fault writes ACC and its flags alone. -/
theorem exec_reads_eq_writeAcc {i : Instr} {s t : State} (hi : Reads i = true)
    (h : exec i s = .next t) (ht : t.err = false) : ∃ v, t = writeAcc v s := by
  rcases exec_next_of_reads hi h with ⟨f, -, rfl⟩ | ⟨-, v, -, rfl⟩
  · cases ht
  · exact ⟨v, rfl⟩

/-- A command that writes a value that fits leaves it in ACC. -/
theorem leavesInAcc_of_writeAcc {i : Instr} {s : State} {v : Nat} (h : exec i s = .next (writeAcc v s))
    (hv : v < 2 ^ 64) : LeavesInAcc i s v :=
  ⟨_, h, writeAcc_acc_toNat s hv, rfl, rfl, rfl, rfl, rfl, rfl, rfl, rfl⟩

theorem leavesInAcc_rldb {k b : Byte} {s : State} (hk : k.toNat < s.wp.toNat)
    (hb : readByte s.buf k.toNat = .ok b) : LeavesInAcc (.rldb k) s b.toNat :=
  leavesInAcc_of_writeAcc (exec_rldb_of_readByte hk hb) (b.isLt.trans (by decide))

/-- RLDB of a held byte leaves it in ACC. -/
theorem leavesInAcc_rldb_of_holds {len : Nat} {r : Vector Byte len} {s : State} (hr : Holds r.toList s)
    {k : Byte} (hk : k.toNat < len) : LeavesInAcc (.rldb k) s r[k.toNat].toNat :=
  leavesInAcc_rldb ((wp_of_holds hr).symm ▸ hk) (readByte_of_holds hr k.toNat hk)

end Sys2Proof.Machine

namespace Sys2Proof.Proofs

open Sys2Proof.Machine Sys2Proof.Claims

/-- Settles O26: the invariant lists exactly the indexes below WP. -/
theorem bufferHoldsExactlyTheWrittenBytes : Obligations.BufferHoldsExactlyTheWrittenBytes := by
  intro s hs
  obtain ⟨r, hr⟩ := exists_holds_of_bufferInv hs rfl
  refine ⟨⟨r.toList, hr, fun _ h => holds_unique h hr⟩, fun a b hread => ?_⟩
  obtain ⟨-, -, hkeys⟩ := hs
  have hmem := mem_keys_of_readByte hread
  rwa [hkeys, List.mem_range] at hmem

/-- Settles O27: the A family's updates do not mention BUF and WP, nor RCLR's and RPUSH's the accumulator. -/
theorem loadingAndDecodingAreIndependent : Obligations.LoadingAndDecodingAreIndependent := by
  refine ⟨fun i s m p hi => ?_, fun i s a z o hi => ?_, fun i s t hi h => ?_, fun i s t hi h => ?_⟩
  · rcases hi with rfl | ⟨b, rfl⟩ <;> rfl
  · rcases hi with rfl | ⟨b, rfl⟩
    · rfl
    · exact exec_rpush_independent b s a z o
  · rcases hi with rfl | ⟨b, rfl⟩ <;> exact exec_keeps_buffer h nofun nofun
  · rcases hi with rfl | ⟨b, rfl⟩
    · rw [exec_rclr] at h; cases h; exact ⟨rfl, rfl, rfl⟩
    · exact exec_rpush_keeps_acc h

/-- Settles O28: RCLR clears WP, RPUSH counts its byte below 34 and faults at 34, the rest leave WP. -/
theorem onlyRpushAndRclrMoveTheWritePointer : Obligations.OnlyRpushAndRclrMoveTheWritePointer := by
  intro i s t h
  cases i with
  | rclr =>
    rw [exec_rclr] at h
    cases h
    exact ⟨fun _ => rfl, nofun, nofun, fun hne => absurd rfl hne, fun _ => Nat.zero_le 34⟩
  | rpush b =>
    rcases exec_rpush_next_cases h with ⟨hw, rfl⟩ | ⟨hw, rfl⟩
    · exact ⟨nofun, fun _ hlt => absurd hw (Nat.ne_of_lt hlt), fun _ _ => rfl,
        fun _ hne => absurd rfl (hne b), fun _ => hw.le⟩
    · have hwp := wp_add_one_toNat hw
      exact ⟨nofun, fun _ _ => hwp, fun _ hfull => absurd hfull (Nat.ne_of_lt hw),
        fun _ hne => absurd rfl (hne b), fun _ => hwp.trans_le hw⟩
  | _ =>
    obtain ⟨-, hwp⟩ := exec_keeps_buffer h nofun nofun
    exact ⟨nofun, nofun, nofun, fun _ _ => hwp, fun hs => hwp ▸ hs⟩

/-- Settles O49: a command that is not RCLR or RPUSH keeps the buffer, and obeys its row of the fault
table. -/
theorem frameOfTheCommandsThatStoreNothing : Obligations.FrameOfTheCommandsThatStoreNothing := by
  intro i s t hclr hpush h
  obtain ⟨hbuf, hwp⟩ := exec_keeps_buffer h hclr hpush
  refine ⟨hwp, exec_keeps_inputs h, fun a => by rw [hbuf], ?_⟩
  rcases exec_next_tableFault h with ⟨f, htable, rfl⟩ | hkeep
  · exact .inl ⟨rfl, rfl, rfl, rfl, htable, rfl⟩
  · exact .inr hkeep

/-- Settles O50: RCLR writes BUF and WP alone; RPUSH takes its fault or writes the byte at WP. -/
theorem frameOfTheBufferCommands : Obligations.FrameOfTheBufferCommands := by
  refine ⟨fun s t h => ?rclr, fun b s t h => ?rpush⟩
  case rclr =>
    rw [exec_rclr] at h
    cases h
    exact ⟨rfl, rfl, rfl, rfl, rfl, rfl, rfl⟩
  case rpush =>
    rcases exec_rpush_next_cases h with ⟨hw, rfl⟩ | ⟨hw, rfl⟩
    · exact ⟨rfl, rfl, rfl, rfl, fun _ _ => rfl, .inl ⟨hw, rfl, rfl, rfl, rfl, fun _ => rfl⟩⟩
    · exact ⟨rfl, rfl, rfl, rfl,
        fun _ hne => readByte_writeByte_other (writeByte_ok (m := s.buf) b hw) hne,
        .inr ⟨Nat.ne_of_lt hw, rfl, rfl, rfl⟩⟩

/-- Settles O51: the first command changed ACC and its flags alone, which the second overwrites unread. -/
theorem laterReadsSeeTheSameRecord : Obligations.LaterReadsSeeTheSameRecord := by
  intro i j s t u hi hj _ ht hterr hu huerr
  obtain ⟨v, rfl⟩ := exec_reads_eq_writeAcc hi ht hterr
  exact exec_reads_writeAcc v hj hu huerr

/-- Settles O44: the signature's bytes are bytes 18 to 33 of the record. -/
theorem md5IsReadByteByByte : Obligations.Md5IsReadByteByByte := by
  intro s r k hr
  have hk : (BitVec.ofNat 8 (18 + k.val)).toNat = 18 + k.val := by
    rw [BitVec.toNat_ofNat]; omega
  have hleaves := leavesInAcc_rldb_of_holds hr (k := BitVec.ofNat 8 (18 + k.val)) (by omega)
  simp only [hk] at hleaves
  exact ⟨rfl, hleaves⟩

end Sys2Proof.Proofs

/-! SUPPORT. Slices put together, and the record as its nine fields and back (R36, R94, R107, R108, R111). -/

namespace Sys2Proof.Machine

open Sys2Proof.Claims

/-- Two slices that follow one another are one slice, the first above the second. -/
theorem slice_append {bs : List Byte} {p m n u v : Nat} (hu : slice bs p m = some u)
    (hv : slice bs (p + m) n = some v) : slice bs p (m + n) = some (u * 2 ^ n + v) := by
  induction m generalizing p u with
  | zero => cases hu; simpa using hv
  | succ m ih =>
    rw [slice] at hu
    split at hu
    case h_1 b low hbit hlow =>
      cases hu
      have hrest := ih hlow (by rwa [Nat.add_right_comm, Nat.add_assoc p m 1])
      rw [Nat.succ_add, slice, hbit, hrest, pow_add]
      simp only [Option.some.injEq]
      ring
    case h_2 => cases hu

/-- All bits of a sequence are its BE. -/
theorem slice_toList {len : Nat} (r : Vector Byte len) :
    slice r.toList 0 (8 * len) = some (beValue r.toList) := by
  have hbytes := slice_bytes (bs := r.toList) (a := 0) (n := len) (by simp)
  rwa [List.drop_zero, List.take_of_length_le (by simp)] at hbytes

/-- A command that obeys its field's rule leaves the field in ACC. -/
theorem leavesInAcc_of_fieldRule {i : Instr} {word : CmdWord} {len : Nat} {code : ErrcWord}
    {value : Vector Byte len → Nat} {p n : Nat} (hrule : FieldRule i word len code value p n)
    (hn : n ≤ 64) {s : State} {r : Vector Byte len} (hr : Holds r.toList s) :
    LeavesInAcc i s (value r) := by
  obtain ⟨-, -, -, hheld⟩ := hrule
  obtain ⟨hexec, -, hlt⟩ := hheld s r hr
  exact leavesInAcc_of_writeAcc hexec (hlt.trans_le (Nat.pow_le_pow_right (by decide) hn))

/-! The header. -/

/-- The three fields of a header make up its 32 bits (R94). -/
theorem beValue_header_fields (h : Vector Byte 4) :
    beValue h.toList = (unpackHeader h).isLast * 2 ^ 31 + (unpackHeader h).blockType * 2 ^ 24 +
      (unpackHeader h).blockLength := by
  have hfields := slice_append (slice_append (slice_lastBlockFlag h) (slice_blockType h))
    (slice_blockLength h)
  rw [Option.some.inj ((slice_toList h).symm.trans hfields), unpackHeader]
  ring

/-! The fields of bytes 12 and 13. -/

theorem slice_channels (r : Vector Byte 34) :
    slice r.toList 100 3 = some (r[12].toNat >>> 1 &&& 0x07) := by
  have hslice := slice_eq_beValue_window (bs := r.toList) (a := 12) (m := 1) (q := 4) (n := 3) (k := 1)
    (by simp) rfl
  have hmask : r[12].toNat >>> 1 &&& 0x07 = r[12].toNat >>> 1 % 2 ^ 3 :=
    Nat.and_two_pow_sub_one_eq_mod _ 3
  rw [take_succ_drop_toList r 0 (by decide), List.take_zero, beValue_singleton,
    ← Nat.shiftRight_eq_div_pow, ← hmask] at hslice
  exact hslice

/-- The recipe of XBPS is the two bytes shifted right by four, modulo 2^5 (R108). -/
theorem bitsPerSample_eq_mod (a b : Byte) :
    (a.toNat &&& 0x01) <<< 4 ||| b.toNat >>> 4 = beValue [a, b] / 2 ^ 4 % 2 ^ 5 := by
  have hlow : b.toNat >>> 4 < 2 ^ 4 := by
    rw [Nat.shiftRight_eq_div_pow]
    have := b.isLt
    omega
  have hbit : a.toNat &&& 0x01 = a.toNat % 2 ^ 1 := Nat.and_two_pow_sub_one_eq_mod _ 1
  rw [← Nat.shiftLeft_add_eq_or_of_lt hlow, hbit, Nat.shiftLeft_eq, Nat.shiftRight_eq_div_pow,
    beValue_two]
  have := b.isLt
  omega

theorem slice_bitsPerSample (r : Vector Byte 34) :
    slice r.toList 103 5 = some ((r[12].toNat &&& 0x01) <<< 4 ||| r[13].toNat >>> 4) := by
  have hslice := slice_eq_beValue_window (bs := r.toList) (a := 12) (m := 2) (q := 7) (n := 5) (k := 4)
    (by simp) rfl
  rw [take_two_drop_toList r (by decide), ← bitsPerSample_eq_mod] at hslice
  exact hslice

/-! The fields of whole bytes. -/

theorem slice_twoBytes (r : Vector Byte 34) {a : Nat} (h : a + 2 ≤ 34) :
    slice r.toList (8 * a) 16 = some (r[a].toNat * 256 + r[a + 1].toNat) := by
  have hslice := slice_bytes (bs := r.toList) (a := a) (n := 2) (by simpa using h)
  rwa [take_two_drop_toList r h, beValue_two] at hslice

theorem slice_threeBytes (r : Vector Byte 34) {a : Nat} (h : a + 3 ≤ 34) :
    slice r.toList (8 * a) 24 =
      some (r[a].toNat * 65536 + r[a + 1].toNat * 256 + r[a + 2].toNat) := by
  have hslice := slice_bytes (bs := r.toList) (a := a) (n := 3) (by simpa using h)
  rwa [take_three_drop_toList r h, beValue_three] at hslice

/-- The unpacker's eight numbers are the slices that follow one another from bit 0 to bit 143 (R100). -/
theorem slice_eq_unpack (r : Vector Byte 34) :
    slice r.toList 0 16 = some (unpack r).minBlock ∧
    slice r.toList 16 16 = some (unpack r).maxBlock ∧
    slice r.toList 32 24 = some (unpack r).minFrame ∧
    slice r.toList 56 24 = some (unpack r).maxFrame ∧
    slice r.toList 80 20 = some (unpack r).sampleRate ∧
    slice r.toList 100 3 = some (unpack r).channelsMinus1 ∧
    slice r.toList 103 5 = some (unpack r).bitsPerSampleMinus1 ∧
    slice r.toList 108 36 = some (unpack r).totalSamples :=
  ⟨slice_twoBytes r (a := 0) (by decide), slice_twoBytes r (a := 2) (by decide),
    slice_threeBytes r (a := 4) (by decide), slice_threeBytes r (a := 7) (by decide),
    slice_sampleRate r, slice_channels r, slice_bitsPerSample r, slice_totalSamples r⟩

/-- The unpacker's signature is the record's last 16 bytes (R110). -/
theorem md5_toList (r : Vector Byte 34) : (unpack r).md5.toList = r.toList.drop 18 := by
  apply List.ext_getElem
  · simp
  · intro k hk hk'
    simp [unpack]

/-! A record from its fields. -/

/-- The field values that fit their places (R100). -/
def InRange (f : StreamInfo) : Prop :=
  f.minBlock < 2 ^ 16 ∧ f.maxBlock < 2 ^ 16 ∧ f.minFrame < 2 ^ 24 ∧ f.maxFrame < 2 ^ 24 ∧
    f.sampleRate < 2 ^ 20 ∧ f.channelsMinus1 < 2 ^ 3 ∧ f.bitsPerSampleMinus1 < 2 ^ 5 ∧
    f.totalSamples < 2 ^ 36

/-- The four fields of bytes 10 to 17, each above the next. -/
def packStraddling (f : StreamInfo) : Nat :=
  f.sampleRate * 2 ^ 44 + f.channelsMinus1 * 2 ^ 41 + f.bitsPerSampleMinus1 * 2 ^ 36 + f.totalSamples

/-- The nine fields as one number of 272 bits, each above the next (R111). -/
def pack (f : StreamInfo) : Nat :=
  f.minBlock * 2 ^ 256 + f.maxBlock * 2 ^ 240 + f.minFrame * 2 ^ 216 + f.maxFrame * 2 ^ 192 +
    packStraddling f * 2 ^ 128 + beValue f.md5.toList

theorem inRange_unpack (r : Vector Byte 34) : InRange (unpack r) := by
  obtain ⟨hminb, hmaxb, hminf, hmaxf, hrate, hchan, hbps, htotal⟩ := slice_eq_unpack r
  exact ⟨slice_lt hminb, slice_lt hmaxb, slice_lt hminf, slice_lt hmaxf, slice_lt hrate, slice_lt hchan,
    slice_lt hbps, slice_lt htotal⟩

/-- Bytes 10 to 17 are their four fields. -/
theorem beValue_straddling (r : Vector Byte 34) :
    beValue ((r.toList.drop 10).take 8) = packStraddling (unpack r) := by
  obtain ⟨-, -, -, -, hrate, hchan, hbps, htotal⟩ := slice_eq_unpack r
  have hfields := slice_append (slice_append (slice_append hrate hchan) hbps) htotal
  have hbytes := slice_bytes (bs := r.toList) (a := 10) (n := 8) (by simp)
  rw [Option.some.inj (hbytes.symm.trans hfields), packStraddling]
  ring

/-- Unpacking a record loses nothing of it (R111). -/
theorem beValue_record (r : Vector Byte 34) : beValue r.toList = pack (unpack r) := by
  obtain ⟨hminb, hmaxb, hminf, hmaxf, -⟩ := slice_eq_unpack r
  have hmiddle := slice_bytes (bs := r.toList) (a := 10) (n := 8) (by simp)
  have hmd5 := slice_bytes (bs := r.toList) (a := 18) (n := 16) (by simp)
  rw [beValue_straddling] at hmiddle
  rw [List.take_of_length_le (by simp), ← md5_toList] at hmd5
  have hfields := slice_append (slice_append (slice_append (slice_append (slice_append hminb hmaxb)
    hminf) hmaxf) hmiddle) hmd5
  rw [Option.some.inj ((slice_toList r).symm.trans hfields), pack]
  ring

/-- In-range fields do not reach into each other's places, so the number gives each of them back. -/
theorem pack_injective {f g : StreamInfo} (hf : InRange f) (hg : InRange g) (h : pack f = pack g) :
    f = g := by
  obtain ⟨f1, f2, f3, f4, f5, f6, f7, f8, f9⟩ := f
  obtain ⟨g1, g2, g3, g4, g5, g6, g7, g8, g9⟩ := g
  simp only [InRange, pack, packStraddling] at hf hg h
  have hf9 : beValue f9.toList < 256 ^ 16 := (beValue_lt _).trans_eq (by simp)
  have hg9 : beValue g9.toList < 256 ^ 16 := (beValue_lt _).trans_eq (by simp)
  have hmd5 : beValue f9.toList = beValue g9.toList := by omega
  obtain rfl : f9 = g9 := Vector.toList_inj.1 (beValue_injective (by simp) hmd5)
  obtain ⟨rfl, rfl, rfl, rfl, rfl, rfl, rfl, rfl⟩ : f1 = g1 ∧ f2 = g2 ∧ f3 = g3 ∧ f4 = g4 ∧ f5 = g5 ∧
    f6 = g6 ∧ f7 = g7 ∧ f8 = g8 := by omega
  rfl

theorem pack_lt {f : StreamInfo} (hf : InRange f) : pack f < 256 ^ 34 := by
  obtain ⟨hminb, hmaxb, hminf, hmaxf, hrate, hchan, hbps, htotal⟩ := hf
  have hmd5 : beValue f.md5.toList < 256 ^ 16 := (beValue_lt _).trans_eq (by simp)
  rw [pack, packStraddling]
  omega

/-- Every in-range tuple of fields is what some record unpacks to: the one whose BE packs them. -/
theorem exists_unpack_eq {f : StreamInfo} (hf : InRange f) : ∃ r : Vector Byte 34, unpack r = f := by
  obtain ⟨bs, hlen, hbs⟩ := exists_beValue_eq (pack_lt hf)
  refine ⟨⟨bs.toArray, hlen⟩, pack_injective (inRange_unpack _) hf ?_⟩
  rw [← beValue_record]
  exact hbs

theorem unpack_injective {r r' : Vector Byte 34} (h : unpack r = unpack r') : r = r' := by
  have hvalue : beValue r.toList = beValue r'.toList := by rw [beValue_record, beValue_record, h]
  exact Vector.toList_inj.1 (beValue_injective (by simp) hvalue)

end Sys2Proof.Machine

namespace Sys2Proof.Proofs

open Sys2Proof.Machine Sys2Proof.Claims

/-- Settles O30: with bytes a to e the bits before the slice and after it make up those of a window of whole
bytes. -/
theorem slicesAreShiftedReads : Obligations.SlicesAreShiftedReads := by
  intro bs p n hn hpn
  have hstart : 8 * (p / 8) + p % 8 = p := Nat.div_add_mod p 8
  have hwindow := slice_eq_beValue_window (bs := bs) (a := p / 8) (m := (p + n - 1) / 8 - p / 8 + 1)
    (q := p % 8) (n := n) (k := 8 * ((p + n - 1) / 8 + 1) - (p + n)) (by omega) (by omega)
  rwa [hstart, ← Nat.shiftRight_eq_div_pow] at hwindow

/-- Settles O41: the count is the three bits after the rate in byte 12. -/
theorem xchanExtractsChannelCountMinusOne : Obligations.XchanExtractsChannelCountMinusOne :=
  fieldRule_of_extractField (f := .recLenMismatch) rfl (fun _ => rfl) (fun _ _ => xchanValue_of_holds)
    slice_channels

/-- Settles O42: the width is the last bit of byte 12 above the high nibble of byte 13. -/
theorem xbpsExtractsBitsPerSampleMinusOne : Obligations.XbpsExtractsBitsPerSampleMinusOne := by
  refine ⟨fieldRule_of_extractField (f := .recLenMismatch) rfl (fun _ => rfl)
    (fun _ _ => xbpsValue_of_holds) slice_bitsPerSample, fun r => ?_⟩
  have hmask := Nat.and_two_pow_sub_one_eq_mod (beValue [r[12], r[13]] >>> 4) 5
  rw [bitsPerSample_eq_mod, ← Nat.shiftRight_eq_div_pow]
  exact hmask.symm

/-- Settles O46: the record of a tuple is the one whose BE is the tuple packed. -/
theorem unpackerIsABijection : Obligations.UnpackerIsABijection := by
  intro f hminb hmaxb hminf hmaxf hrate hchan hbps htotal
  obtain ⟨r, hr⟩ := exists_unpack_eq ⟨hminb, hmaxb, hminf, hmaxf, hrate, hchan, hbps, htotal⟩
  exact ⟨r, hr, fun r' hr' => unpack_injective (hr'.trans hr.symm)⟩

end Sys2Proof.Proofs

/-! SUPPORT. What the H and X commands leave in ACC of a held record, and the run that loads one first (R60,
R113). -/

namespace Sys2Proof.Machine

open Sys2Proof.Claims Sys2Proof.Proofs

/-- The H commands with the fields of the pure header reader. -/
theorem leavesInAcc_unpackHeader {h : Vector Byte 4} {s : State} (hh : Holds h.toList s) :
    LeavesInAcc .hlast s (unpackHeader h).isLast ∧ LeavesInAcc .htype s (unpackHeader h).blockType ∧
      LeavesInAcc .hlen s (unpackHeader h).blockLength :=
  ⟨leavesInAcc_of_fieldRule hlastExtractsTheLastBlockFlag.1 (by decide) hh,
    leavesInAcc_of_fieldRule htypeExtractsTheBlockType (by decide) hh,
    leavesInAcc_of_fieldRule hlenExtractsTheBlockLength.1 (by decide) hh⟩

/-- The X commands with the fields of the pure unpacker. -/
theorem leavesInAcc_unpack {r : Vector Byte 34} {s : State} (hr : Holds r.toList s) :
    LeavesInAcc .xminblk s (unpack r).minBlock ∧ LeavesInAcc .xmaxblk s (unpack r).maxBlock ∧
      LeavesInAcc .xminfrm s (unpack r).minFrame ∧ LeavesInAcc .xmaxfrm s (unpack r).maxFrame ∧
      LeavesInAcc .xrate s (unpack r).sampleRate ∧ LeavesInAcc .xchan s (unpack r).channelsMinus1 ∧
      LeavesInAcc .xbps s (unpack r).bitsPerSampleMinus1 ∧
      LeavesInAcc .xtotal s (unpack r).totalSamples :=
  ⟨leavesInAcc_of_fieldRule xminblkExtractsTheMinBlockSize (by decide) hr,
    leavesInAcc_of_fieldRule xmaxblkExtractsTheMaxBlockSize (by decide) hr,
    leavesInAcc_of_fieldRule xminfrmExtractsTheMinFrameSize (by decide) hr,
    leavesInAcc_of_fieldRule xmaxfrmExtractsTheMaxFrameSize (by decide) hr,
    leavesInAcc_of_fieldRule xrateExtractsTheSampleRate.1 (by decide) hr,
    leavesInAcc_of_fieldRule xchanExtractsChannelCountMinusOne (by decide) hr,
    leavesInAcc_of_fieldRule xbpsExtractsBitsPerSampleMinusOne.1 (by decide) hr,
    leavesInAcc_of_fieldRule xtotalExtractsTheTotalSamples.1 (by decide) hr⟩

/-- The byte commands read the signature from the record's own bytes. -/
theorem md5_getElem (r : Vector Byte 34) (k : Fin 16) : (unpack r).md5[k] = r[18 + k.val] := by
  simp [unpack]

/-- The rate's top eight bits are byte 10 (R32). -/
theorem sampleRate_div (r : Vector Byte 34) : (unpack r).sampleRate / 2 ^ 12 = r[10].toNat := by
  have h11 := r[11].isLt
  have h12 := r[12].isLt
  change beValue [r[10], r[11], r[12]] >>> 4 / 2 ^ 12 = _
  rw [beValue_three_shiftRight_four, Nat.shiftRight_eq_div_pow]
  omega

/-! Loading. -/

theorem presentAll_append (is js : List Instr) : presentAll (is ++ js) = presentAll is ++ presentAll js :=
  List.map_append

/-- A run of presented RPUSHes stores its bytes behind those held, while there is room. -/
theorem runSteps_rpush {bs cs : List Byte} {s : State} {rest : List PortInput} (herr : s.err = false)
    (hin : s.inputs = presentAll (bs.map .rpush) ++ rest) (hs : Holds cs s)
    (hroom : cs.length + bs.length ≤ Config.bufLen) :
    ∃ t, runSteps bs.length s = .next t ∧ Holds (cs ++ bs) t ∧ t.err = false ∧ t.inputs = rest := by
  induction bs generalizing cs s with
  | nil => exact ⟨s, rfl, by rwa [List.append_nil], herr, hin⟩
  | cons b bs ih =>
    rw [List.length_cons] at hroom
    have hwp : s.wp.toNat = cs.length := hs.1
    obtain ⟨-, -, -, hstore⟩ :=
      rpushAppendsToTheBuffer b { s with inputs := presentAll (bs.map .rpush) ++ rest }
    obtain ⟨t, ht, hframe, -, -, -, hholds⟩ := hstore (by simp at hroom ⊢; omega)
    have herrt : t.err = false := by rw [hframe]; exact herr
    have hint : t.inputs = presentAll (bs.map .rpush) ++ rest := by rw [hframe]
    rw [List.length_cons, runSteps_presentAll_cons bs.length herr hin ht]
    obtain ⟨u, hu, hall, hrest⟩ := ih herrt hint (hholds cs hs) (by
      rw [List.length_append, List.length_singleton]; omega)
    exact ⟨u, hu, by rwa [List.append_assoc] at hall, hrest⟩

/-- RCLR and then a presented RPUSH for each byte leave the buffer holding those bytes (LOADHDR, LOADREC). -/
theorem runSteps_load {bs : List Byte} {s : State} {rest : List PortInput} (herr : s.err = false)
    (hin : s.inputs = presentAll (.rclr :: bs.map .rpush) ++ rest) (hroom : bs.length ≤ Config.bufLen) :
    ∃ t, runSteps (bs.length + 1) s = .next t ∧ Holds bs t ∧ t.err = false ∧ t.inputs = rest := by
  rw [runSteps_presentAll_cons bs.length herr hin (exec_rclr _)]
  exact runSteps_rpush (cs := []) herr rfl ⟨rfl, rfl⟩ (by rwa [List.length_nil, Nat.zero_add])

/-- Bytes loaded and one command presented: the command finds them held, and leaves them so. -/
theorem runSteps_load_read {bs : List Byte} {i : Instr} {v : Nat} {s : State} {rest : List PortInput}
    (herr : s.err = false) (hin : s.inputs = presentAll ((.rclr :: bs.map .rpush) ++ [i]) ++ rest)
    (hroom : bs.length ≤ Config.bufLen) (hread : ∀ t, Holds bs t → LeavesInAcc i t v) :
    ∃ t, runSteps (bs.length + 2) s = .next t ∧ Holds bs t ∧ t.acc.toNat = v ∧ t.z = decide (v = 0) ∧
      t.ovf = false ∧ t.err = false ∧ t.inputs = rest := by
  rw [presentAll_append, List.append_assoc] at hin
  obtain ⟨u, hu, hheld, herru, hinu⟩ := runSteps_load herr hin hroom
  obtain ⟨t, ht, hacc, hz, hovf, hbuf, hwp, herrt, -, -, hint⟩ :=
    hread { u with inputs := rest } hheld
  have hlast : runSteps 1 u = .next t := runSteps_presentAll_cons 0 herru hinu ht
  rw [runSteps_add_of_next 1 hu]
  exact ⟨t, hlast, by rwa [Holds, hbuf, hwp], hacc, hz, hovf, herrt.trans herru, hint⟩

end Sys2Proof.Machine

namespace Sys2Proof.Proofs

open Sys2Proof.Machine Sys2Proof.Claims

/-- Settles O29: RLDB reads the byte RPUSH stored; byte 10 is the rate without its low twelve bits. -/
theorem mixedWidthReadsSeeTheSameBytes : Obligations.MixedWidthReadsSeeTheSameBytes := by
  refine ⟨fun b k s hwp hk => ?stored, fun s r hr => ?rate⟩
  case stored =>
    obtain ⟨-, -, -, hstore⟩ := rpushAppendsToTheBuffer b s
    obtain ⟨t, ht, -, hwpt, hself, -⟩ := hstore hwp
    exact ⟨t, ht, leavesInAcc_rldb (by omega) (by rwa [hk])⟩
  case rate =>
    obtain ⟨-, -, -, -, hrate, -⟩ := leavesInAcc_unpack hr
    refine ⟨_, hrate, ?_⟩
    rw [sampleRate_div]
    exact leavesInAcc_rldb_of_holds hr (k := 10#8) (by decide)

/-- Settles O34: the three fields are slices that follow one another over the header's 32 bits. -/
theorem headerFieldsPartitionTheHeader : Obligations.HeaderFieldsPartitionTheHeader := by
  intro s h hh
  obtain ⟨hlast, htype, hlen⟩ := leavesInAcc_unpackHeader hh
  exact ⟨_, _, _, hlast, htype, hlen, slice_lt (slice_lastBlockFlag h), slice_lt (slice_blockType h),
    slice_lt (slice_blockLength h), beValue_header_fields h⟩

/-- Settles O35: LOADHDR leaves the header held, and each H command reads its field of a held header. -/
theorem loadedHeaderDecodes : Obligations.LoadedHeaderDecodes := by
  intro h s rest i v herr hi hin
  have hread : ∀ t, Holds h.toList t → LeavesInAcc i t v := by
    intro t ht
    obtain ⟨hlast, htype, hlen⟩ := leavesInAcc_unpackHeader ht
    simp only [List.mem_cons, List.not_mem_nil, or_false, Prod.mk.injEq] at hi
    rcases hi with ⟨rfl, rfl⟩ | ⟨rfl, rfl⟩ | ⟨rfl, rfl⟩
    · exact hlast
    · exact htype
    · exact hlen
  have hrun := runSteps_load_read herr hin (by simp) hread
  rwa [Vector.length_toList] at hrun

/-- Settles O45: the fields are slices that follow one another over the record's first 144 bits, those of
bytes 10 to 17 being a run of their own. -/
theorem recordFieldsPartitionTheRecord : Obligations.RecordFieldsPartitionTheRecord := by
  intro s r hr
  obtain ⟨hminb, hmaxb, hminf, hmaxf, hrate, hchan, hbps, htotal⟩ := leavesInAcc_unpack hr
  obtain ⟨bminb, bmaxb, bminf, bmaxf, brate, bchan, bbps, btotal⟩ := inRange_unpack r
  refine ⟨_, _, _, _, _, _, _, _, hminb, hmaxb, hminf, hmaxf, hrate, hchan, hbps, htotal, bminb, bmaxb,
    bminf, bmaxf, brate, bchan, bbps, btotal, ?_, beValue_straddling r⟩
  rw [beValue_record, pack, packStraddling, md5_toList]
  ring

/-- Settles O47: LOADREC leaves the record held, and each command reads its field of a held record. -/
theorem loadedRecordUnpacks : Obligations.LoadedRecordUnpacks := by
  intro r s rest i v herr hi hin
  have hread : ∀ t, Holds r.toList t → LeavesInAcc i t v := by
    intro t ht
    rcases hi with hi | ⟨k, rfl, rfl⟩
    · obtain ⟨hminb, hmaxb, hminf, hmaxf, hrate, hchan, hbps, htotal⟩ := leavesInAcc_unpack ht
      simp only [List.mem_cons, List.not_mem_nil, or_false, Prod.mk.injEq] at hi
      rcases hi with ⟨rfl, rfl⟩ | ⟨rfl, rfl⟩ | ⟨rfl, rfl⟩ | ⟨rfl, rfl⟩ | ⟨rfl, rfl⟩ | ⟨rfl, rfl⟩ |
        ⟨rfl, rfl⟩ | ⟨rfl, rfl⟩
      · exact hminb
      · exact hmaxb
      · exact hminf
      · exact hmaxf
      · exact hrate
      · exact hchan
      · exact hbps
      · exact htotal
    · rw [md5_getElem]
      exact (md5IsReadByteByByte t r k ht).2
  have hrun := runSteps_load_read herr hin (by simp) hread
  rwa [Vector.length_toList] at hrun

end Sys2Proof.Proofs
